-- ==== Sys2Proof/Word.lean ====
section
/-! DEFINITION. The bit vectors of the SM4-GCM core (spec/00_scope.md R10, R12). -/

namespace Sys2Proof

/-- One byte of a byte string or of the data memory (R13). -/
abbrev Byte := BitVec 8

/-- A 32-bit word; bit 0 is the least significant (R12, R15). -/
abbrev Word := BitVec 32

/-- A 16-byte block, or an element of GF(2^128), as the 128-bit big-endian number of its bytes:
byte 0 is bits 127..120 (R14, R17). -/
abbrev Block := BitVec 128

end Sys2Proof
end

