-- ==== Sys2Proof/Config.lean ====
section
/-! DEFINITION. What an implementation fixes (the parameters of spec/00_scope.md R11) and the values
the spec leaves free. -/

namespace Sys2Proof

/-- `GCM_AUTH_LAYOUT` (R11, R245). -/
inductive AuthLayout where
  | docConcat
  | nistPadded
  deriving DecidableEq, Repr

/-- `GCM_IV_EXPANSION` (R11, R243). -/
inductive IvExpansion where
  | docPlain
  | nistLengthBlock
  deriving DecidableEq, Repr

/-- `GCM_CLEAR_IV_MODE` (R11, R249). -/
inductive ClearIvMode where
  | empty
  | zeroFill
  deriving DecidableEq, Repr

/-- The parameters of R11, but for `CAP`, which reset samples (R44). The model takes them as an argument:
they are a field of State that no step changes, and every statement holds for all their values. -/
structure Params where
  /-- `REG_BASE`: host-bus address of the register window. -/
  regBase : Nat
  /-- `MEM_SIZE`: bytes of data memory. -/
  memSize : Nat
  /-- `MAX_IV_BYTES`. -/
  maxIvBytes : Nat
  /-- `MAX_AAD_BYTES`. -/
  maxAadBytes : Nat
  /-- `GCM_AUTH_LAYOUT`. -/
  authLayout : AuthLayout
  /-- `GCM_IV_EXPANSION`. -/
  ivExpansion : IvExpansion
  /-- `EMPTY_IV_COUNTS_AS_SET`. -/
  emptyIvCountsAsSet : Bool
  /-- `GCM_CLEAR_IV_MODE`. -/
  clearIvMode : ClearIvMode
  deriving DecidableEq, Repr

/-- The bounds R11 puts on the parameters. -/
def Params.wf (p : Params) : Bool :=
  decide (1 ≤ p.memSize) && decide (p.memSize ≤ 2 ^ 32) && decide (12 ≤ p.maxIvBytes)

/-- The parameters `State.reset` takes. The two-valued ones are the spec's defaults (R11);
`REG_BASE`, `MEM_SIZE` and the two capacities are OPEN there and are a DESIGN CHOICE here
(notes/assumptions/6.md, unsafe for a claim about `State.reset` alone). -/
def Params.default : Params where
  regBase := 0
  memSize := 2 ^ 32
  maxIvBytes := 2 ^ 32 - 1
  maxAadBytes := 2 ^ 32 - 1
  authLayout := .docConcat
  ivExpansion := .docPlain
  emptyIvCountsAsSet := true
  clearIvMode := .empty

/-- Free value: what STATUS bits 6:4 read as while BUSY, "drawn freely on each read"
(spec/10_state.md R51; notes/assumptions/3.md). The argument is a fresh number for each read. -/
opaque Config.freeStatusBits : Nat → BitVec 3

/-- Free value: what a byte of an output range holds after a reset during a command
(spec/70_reset_and_hazards.md R333; notes/assumptions/4.md). A fresh number for each byte. -/
opaque Config.freeByte : Nat → Byte

end Sys2Proof
end

