-- ==== Sys2Proof/Syntax.lean ====
section
/-! DEFINITION. The commands of the core, one constructor per row of spec/opcode_table.json
(spec/30_encoding.md R102). -/

namespace Sys2Proof

/-- A command as the command word names it. Operands come from the operand registers (R103), so only
GCM_ENC and GCM_DEC carry a field: TAGLEN, CMD[12:8] (R33, R104). -/
inductive Instr where
  | ksExpand
  | sm4SetKey
  | sm4Enc
  | sm4Dec
  | sm4EncBlocks
  | sm4DecBlocks
  | sm4Clear
  | gfMul
  | ghash
  | gcmSetKey
  | gcmSetIv
  | gcmSetAad
  | gcmEnc (tagLen : BitVec 5)
  | gcmDec (tagLen : BitVec 5)
  | gcmClear
  deriving DecidableEq, Repr

end Sys2Proof
end

