-- ==== Sys2Proof/Machine/State.lean ====
section
/-! DEFINITION. The state of the SM4-GCM core as plain data (spec/10_state.md), the reasons a step stops,
and the state after reset (R50, R330). -/

namespace Sys2Proof.Machine

open Sys2Proof

/-- Why the machine stops with a fault. The core itself never stops with one: its two errors are codes in
STATUS.ERR (R300, R307). -/
inductive Fault where
  /-- Raised by a host access to a data-memory address at or above MEM_SIZE, which R70 does not give the
  data memory (notes/assumptions/11.md). Safe: the model stops where the platform may go on. -/
  | hostAddressAbsent
  deriving DecidableEq, Repr

/-- Why the model gives a run no meaning: the closed list of spec/60_exceptions.md R306. All are safe. -/
inductive Refusal where
  /-- Raised by `exec` for a command that has no meaning in this model yet; safe. -/
  | notModelled (mnemonic : String)
  /-- Raised by a CMD write of a reserved encoding (R106); safe. -/
  | reservedEncoding
  /-- Raised by a command with an operand range past MEM_SIZE (R72, R73); safe. -/
  | outOfRange
  /-- Raised by a command whose ranges overlap illegally (R80); safe. -/
  | overlap
  /-- Raised by GCM_SETIV with LEN > MAX_IV_BYTES (R241); safe. -/
  | ivCapacity
  /-- Raised by GCM_SETAAD with LEN > MAX_AAD_BYTES (R242); safe. -/
  | aadCapacity
  /-- Raised by a host access to the register window that is not an aligned 32-bit access (R79), also while
  BUSY (notes/assumptions/23.md); safe. -/
  | badRegisterAccess
  /-- Raised by a register write while BUSY (R340) and by a host access to a range the core owns (R341);
  safe. -/
  | hostHazard
  deriving DecidableEq, Repr

/-- STATUS.ERR (R34, R300). The fourth code, 3, is never produced. -/
inductive ErrCode where
  | none
  | invalidState
  | authFail
  deriving DecidableEq, Repr

/-- The operand registers of R35 to R40. BACKEND_SEL holds only its bits 1:0 (R40). -/
structure OperandRegs where
  src : Word
  src2 : Word
  dst : Word
  len : Word
  tag : Word
  backend : BitVec 2
  deriving DecidableEq, Repr

/-- The command in flight: the command word and the operand registers latched at the CMD write
(R47, R52). `turns` is the model's own: how many host turns the command still stays BUSY
(R345; notes/assumptions/1.md). -/
structure InFlight where
  word : Word
  latch : OperandRegs
  turns : Nat
  deriving DecidableEq, Repr

/-- `CORE_STATE` (R31) with the hidden state it carries while BUSY (R47). -/
inductive CoreState where
  | idle
  | busy (cmd : InFlight)
  deriving DecidableEq, Repr

/-- 32 round keys (R42, R43). -/
abbrev Schedule := Vector Word 32

/-- The cipher context: RK_C and C_KEYED (R42). -/
structure CipherContext where
  rk : Schedule
  keyed : Bool
  deriving DecidableEq, Repr

/-- The GCM session: RK_G, H, IVBUF, IV_SET, AADBUF, G_KEYED (R43). IVLEN and AADLEN are the lengths of
the two lists (notes/assumptions/16.md). -/
structure GcmSession where
  rk : Schedule
  h : Block
  iv : List Byte
  ivSet : Bool
  aad : List Byte
  keyed : Bool
  deriving DecidableEq, Repr

/-- The data memory M: (address, byte) pairs, addresses strictly rising, no byte equal to what an unlisted
address reads as (`Memory.wf` in Machine/Memory.lean). -/
abbrev Memory := List Host.Cell

/-- A byte range `[addr, addr + len)` of the data memory (R80). -/
structure Range where
  addr : Nat
  len : Nat
  deriving DecidableEq, Repr

/-- One access the host makes (R8, R70, R108). Addresses of `write` and `read` are host-bus addresses,
`width` is in bytes. -/
inductive HostOp where
  /-- `wr`: a write of `value` on the register bus. -/
  | write (addr width : Nat) (value : Word)
  /-- `rd`: a read on the register bus. -/
  | read (addr width : Nat)
  /-- `wait`: read STATUS until BUSY reads 0. -/
  | wait
  /-- `mw`: a host write of bytes to data memory. -/
  | memWrite (addr : Nat) (bytes : List Byte)
  /-- A host read of data memory. -/
  | memRead (addr len : Nat)
  /-- `rst` asserted, with the level of `cap_in` (R330). -/
  | reset (capIn : Bool)
  deriving DecidableEq, Repr

/-- What a host read answers. -/
inductive Response where
  | word (value : Word)
  | bytes (value : List Byte)
  deriving DecidableEq, Repr

/-- Everything the spec gives the machine (INVENTORY.md, State), and the model's own fields
`params`, `host`, `busyFor`, `resp` and `freeCount`. -/
structure State where
  /-- The implementation parameters (R11); no step changes them. -/
  params : Params
  /-- CORE_STATE and the in-flight command (R31, R47). -/
  core : CoreState
  /-- STATUS.DONE (R34). -/
  done : Bool
  /-- STATUS.ERR (R34). -/
  err : ErrCode
  /-- STATUS.CAP = CAP (R44). -/
  cap : Bool
  /-- SRC, SRC2, DST, LEN, TAG, BACKEND_SEL (R35 to R40). -/
  regs : OperandRegs
  /-- RK_C, C_KEYED (R42). -/
  cipher : CipherContext
  /-- RK_G, H, IVBUF, IV_SET, AADBUF, G_KEYED (R43). -/
  session : GcmSession
  /-- The data memory M (R70). -/
  mem : Memory
  /-- Input ranges the core owns (R82, R341). -/
  ownedIn : List Range
  /-- Output ranges the core owns (R82, R341). -/
  ownedOut : List Range
  /-- The accesses the host is still going to make, oldest first (notes/assumptions/2.md). -/
  host : List HostOp
  /-- For each command still to be accepted, the host turns it stays BUSY; 0 once the list is used up
  (R345; notes/assumptions/1.md). -/
  busyFor : List Nat
  /-- The answer to the host's last read (notes/assumptions/13.md). -/
  resp : Option Response
  /-- Picks fresh free values (notes/assumptions/15.md). -/
  freeCount : Nat
  deriving DecidableEq, Repr

/-- All operand registers 0, BACKEND = REFERENCE (R50). -/
def OperandRegs.zero : OperandRegs where
  src := 0
  src2 := 0
  dst := 0
  len := 0
  tag := 0
  backend := 0

/-- 32 zero words. -/
def Schedule.zero : Schedule := Vector.replicate 32 0

/-- The cipher context after reset or SM4_CLEAR (R50, R186). -/
def CipherContext.cleared : CipherContext where
  rk := Schedule.zero
  keyed := false

/-- The GCM session after reset or GCM_CLEAR in mode EMPTY (R50, R249). -/
def GcmSession.cleared : GcmSession where
  rk := Schedule.zero
  h := 0
  iv := []
  ivSet := false
  aad := []
  keyed := false

/-- The machine right after reset (R50, R330), for any parameters and any level of `cap_in`; data memory
lists nothing, the host has nothing to do yet. -/
def State.resetWith (p : Params) (capIn : Bool) : State where
  params := p
  core := .idle
  done := false
  err := .none
  cap := capIn
  regs := OperandRegs.zero
  cipher := CipherContext.cleared
  session := GcmSession.cleared
  mem := []
  ownedIn := []
  ownedOut := []
  host := []
  busyFor := []
  resp := none
  freeCount := 0

/-- The machine right after reset. `cap_in` is OPEN (R11): low is a DESIGN CHOICE (notes/assumptions/7.md);
the parameters are those of `Params.default` (notes/assumptions/6.md). -/
def State.reset : State := State.resetWith Params.default false

end Sys2Proof.Machine
end

