-- ==== Sys2Proof/Machine/Flags.lean ====
section
/-! DEFINITION. The flags: STATUS as the host reads it (spec/10_state.md R34, R48, R49, R51). -/

namespace Sys2Proof.Machine

open Sys2Proof

/-- STATUS.BUSY (R31, R34). -/
def State.busy (s : State) : Bool :=
  match s.core with
  | .idle => false
  | .busy _ => true

/-- The code in STATUS[3:2] (R34, R300). -/
def ErrCode.code : ErrCode → BitVec 2
  | .none => 0
  | .invalidState => 1
  | .authFail => 2

/-- The fields of STATUS put together, bits 31:8 zero (R34). `ctx` is bits 6:4. -/
def statusFields (cap : Bool) (ctx : BitVec 3) (err : BitVec 2) (done busy : Bool) : Word :=
  (0 : BitVec 24) ++ BitVec.ofBool cap ++ ctx ++ err ++ BitVec.ofBool done ++ BitVec.ofBool busy

/-- Bits 6:4: IV_SET, G_KEYED, C_KEYED (R34). -/
def State.contextBits (s : State) : BitVec 3 :=
  BitVec.ofBool s.session.ivSet ++ BitVec.ofBool s.session.keyed ++ BitVec.ofBool s.cipher.keyed

/-- STATUS while IDLE (R34). -/
def State.idleStatus (s : State) : Word := statusFields s.cap s.contextBits s.err.code s.done false

/-- STATUS while BUSY: BUSY = 1, DONE = 0, ERR = 0 and CAP, with bits 6:4 any value (R51). -/
def State.busyStatus (s : State) (ctx : BitVec 3) : Word := statusFields s.cap ctx 0 false true

/-- The source's session states, a derived view of G_KEYED and IV_SET (R49). -/
inductive SessionPhase where
  | uninitialized
  | keySet
  | ready
  /-- IV set, no key; the source has no name for it. -/
  | ivOnly
  deriving DecidableEq, Repr

/-- R49's table. -/
def GcmSession.phase (g : GcmSession) : SessionPhase :=
  match g.keyed, g.ivSet with
  | false, false => .uninitialized
  | true, false => .keySet
  | true, true => .ready
  | false, true => .ivOnly

end Sys2Proof.Machine
end

