-- ==== Sys2Proof/WellFormed.lean ====
section
/-! DEFINITION. Which commands the encoding admits (spec/10_state.md R33, spec/30_encoding.md R106). -/

namespace Sys2Proof

/-- TAGLEN is 0..16 for GCM_ENC and GCM_DEC (R33, R106); nothing else in a command can be ill-formed. -/
def Instr.wf : Instr → Bool
  | .ksExpand => true
  | .sm4SetKey => true
  | .sm4Enc => true
  | .sm4Dec => true
  | .sm4EncBlocks => true
  | .sm4DecBlocks => true
  | .sm4Clear => true
  | .gfMul => true
  | .ghash => true
  | .gcmSetKey => true
  | .gcmSetIv => true
  | .gcmSetAad => true
  | .gcmEnc t => decide (t.toNat ≤ 16)
  | .gcmDec t => decide (t.toNat ≤ 16)
  | .gcmClear => true

end Sys2Proof
end

