-- ==== Sys2Proof/Decode.lean ====
section
/-! DEFINITION. The command word (spec/10_state.md R33, spec/30_encoding.md R100 to R107): decoder and
encoder. -/

namespace Sys2Proof

/-- Why a command word is a reserved encoding, one name per line of R106. -/
inductive DecodeError where
  /-- CMD[31:13] ≠ 0. -/
  | highBitsNotZero
  /-- CMD[7:6] ≠ 0. -/
  | bits7to6NotZero
  /-- OPCODE is not in the table of R102. -/
  | unknownOpcode
  /-- GCM_ENC or GCM_DEC with TAGLEN > 16. -/
  | tagLenOver16
  /-- Any other command with TAGLEN ≠ 0. -/
  | tagLenNotZero
  deriving DecidableEq, Repr

/-- CMD[5:0] (R33). -/
def opcodeField (w : Word) : BitVec 6 := w.extractLsb' 0 6

/-- CMD[7:6], which must be 0 (R33). -/
def lowReservedField (w : Word) : BitVec 2 := w.extractLsb' 6 2

/-- CMD[12:8], TAGLEN (R33). -/
def tagLenField (w : Word) : BitVec 5 := w.extractLsb' 8 5

/-- CMD[31:13], which must be 0 (R33). -/
def highReservedField (w : Word) : BitVec 19 := w.extractLsb' 13 19

/-- The commands whose TAGLEN must be 0 (R106, last line). -/
def withoutTagLen (t : BitVec 5) (i : Instr) : Except DecodeError Instr :=
  if t = 0 then .ok i else .error .tagLenNotZero

/-- GCM_ENC and GCM_DEC, whose TAGLEN is 0..16 (R106, fourth line). -/
def withTagLen (t : BitVec 5) (i : Instr) : Except DecodeError Instr :=
  if t.toNat ≤ 16 then .ok i else .error .tagLenOver16

/-- The opcode map of R102; `t` is the TAGLEN field. -/
def decodeOpcode (op : BitVec 6) (t : BitVec 5) : Except DecodeError Instr :=
  if op = 0x01 then withoutTagLen t .ksExpand
  else if op = 0x02 then withoutTagLen t .sm4SetKey
  else if op = 0x03 then withoutTagLen t .sm4Enc
  else if op = 0x04 then withoutTagLen t .sm4Dec
  else if op = 0x05 then withoutTagLen t .sm4EncBlocks
  else if op = 0x06 then withoutTagLen t .sm4DecBlocks
  else if op = 0x07 then withoutTagLen t .sm4Clear
  else if op = 0x11 then withoutTagLen t .gfMul
  else if op = 0x12 then withoutTagLen t .ghash
  else if op = 0x21 then withoutTagLen t .gcmSetKey
  else if op = 0x22 then withoutTagLen t .gcmSetIv
  else if op = 0x23 then withoutTagLen t .gcmSetAad
  else if op = 0x24 then withTagLen t (.gcmEnc t)
  else if op = 0x25 then withTagLen t (.gcmDec t)
  else if op = 0x26 then withoutTagLen t .gcmClear
  else .error .unknownOpcode

/-- The decoder: total on every 32-bit word, a reserved encoding is rejected by name (R106, R107). -/
def decode (w : Word) : Except DecodeError Instr :=
  if highReservedField w ≠ 0 then .error .highBitsNotZero
  else if lowReservedField w ≠ 0 then .error .bits7to6NotZero
  else decodeOpcode (opcodeField w) (tagLenField w)

/-- OPCODE of a command (R102). -/
def Instr.opcode : Instr → BitVec 6
  | .ksExpand => 0x01
  | .sm4SetKey => 0x02
  | .sm4Enc => 0x03
  | .sm4Dec => 0x04
  | .sm4EncBlocks => 0x05
  | .sm4DecBlocks => 0x06
  | .sm4Clear => 0x07
  | .gfMul => 0x11
  | .ghash => 0x12
  | .gcmSetKey => 0x21
  | .gcmSetIv => 0x22
  | .gcmSetAad => 0x23
  | .gcmEnc _ => 0x24
  | .gcmDec _ => 0x25
  | .gcmClear => 0x26

/-- TAGLEN of a command; 0 for every command but GCM_ENC and GCM_DEC (R33). -/
def Instr.tagLenBits : Instr → BitVec 5
  | .gcmEnc t => t
  | .gcmDec t => t
  | .ksExpand | .sm4SetKey | .sm4Enc | .sm4Dec | .sm4EncBlocks | .sm4DecBlocks | .sm4Clear
  | .gfMul | .ghash | .gcmSetKey | .gcmSetIv | .gcmSetAad | .gcmClear => 0

/-- The encoder: the one format of R100, bits 31:13 and 7:6 zero. -/
def encode (i : Instr) : Word :=
  ((0 : BitVec 19) ++ i.tagLenBits ++ (0 : BitVec 2) ++ i.opcode : BitVec 32)

/-- The instruction the decoder reads from the bits of an opcode-table row. A command is one 32-bit word,
so a row's bits above `nbits` are 0 and a number that does not fit in `nbits` or 32 bits is no command. -/
def decodeTableWord (nbits w : Nat) : Option Instr :=
  if nbits ≤ 32 ∧ w < 2 ^ nbits then
    match decode (BitVec.ofNat 32 w) with
    | .ok i => some i
    | .error _ => none
  else none

end Sys2Proof
end

