-- ==== Sys2Proof/Machine/Memory.lean ====
section
/-! DEFINITION. The data memory (spec/20_memory.md R70 to R75): one canonical list, byte reads and writes,
and the byte-string reads and writes every command uses. -/

namespace Sys2Proof.Machine

open Sys2Proof

/-- What an address reads as that nothing has written. The core does not initialise data memory and the spec
gives it no content (R75): 0x00 is a DESIGN CHOICE (notes/assumptions/5.md, unsafe for a run from reset). -/
abbrev Memory.unlisted : Byte := 0x00

/-- The canonical form: addresses strictly rising, no byte equal to what an unlisted address reads as. -/
abbrev Memory.wf (m : Memory) : Prop :=
  m.Pairwise (fun c d => c.1 < d.1) ∧ ∀ c ∈ m, c.2 ≠ Memory.unlisted

/-- `M[a]`. -/
def Memory.readByte : Memory → Nat → Byte
  | [], _ => Memory.unlisted
  | c :: rest, a => if a = c.1 then c.2 else Memory.readByte rest a

/-- `M[a] <- b`, keeping the canonical form. -/
def Memory.writeByte : Memory → Nat → Byte → Memory
  | [], a, b => if b = Memory.unlisted then [] else [(a, b)]
  | c :: rest, a, b =>
    if a < c.1 then (if b = Memory.unlisted then c :: rest else (a, b) :: c :: rest)
    else if a = c.1 then (if b = Memory.unlisted then rest else (a, b) :: rest)
    else c :: Memory.writeByte rest a b

/-- The bytes at `a .. a+n-1`, in ascending address order (R72, without its range check, which
`State.commandRefusal` makes for every range of a command before any access). -/
def Memory.readBytes (m : Memory) (a : Nat) : Nat → List Byte
  | 0 => []
  | n + 1 => m.readByte a :: Memory.readBytes m (a + 1) n

/-- The byte string written at `a ..` (R73, likewise). -/
def Memory.writeBytes : Memory → Nat → List Byte → Memory
  | m, _, [] => m
  | m, a, b :: bs => Memory.writeBytes (m.writeByte a b) (a + 1) bs

end Sys2Proof.Machine
end

