-- ==== Sys2Proof/Machine/Bytes.lean ====
section
/-! DEFINITION. Byte order, decided once: every conversion between byte strings and words, blocks or length
fields is big-endian (spec/00_scope.md R13, R14, R17; spec/20_memory.md R76). -/

namespace Sys2Proof.Machine

open Sys2Proof

/-- The `n`-byte big-endian encoding of a number, modulo 2^(8n). -/
def natBytes : Nat → Nat → List Byte
  | 0, _ => []
  | n + 1, v => BitVec.ofNat 8 (v / 256 ^ n) :: natBytes n v

/-- The number a byte string encodes, big-endian. -/
def bytesNat (bs : List Byte) : Nat := bs.foldl (fun acc b => acc * 256 + b.toNat) 0

/-- `bytes32(w)` (R14). -/
def bytes32 (w : Word) : List Byte := natBytes 4 w.toNat

/-- `be64bytes(v)` (R14). -/
def be64bytes (v : Nat) : List Byte := natBytes 8 v

/-- The 16 bytes of a block (R14). -/
def blockBytes (b : Block) : List Byte := natBytes 16 b.toNat

/-- The block of 16 bytes (R14). -/
def bytesBlock (bs : List Byte) : Block := BitVec.ofNat 128 (bytesNat bs)

/-- `n` zero bytes, `0^n` (R13). -/
def zeroBytes (n : Nat) : List Byte := List.replicate n 0

/-- A byte string padded on the right with zeros to 16 bytes (R223). -/
def padTo16 (bs : List Byte) : List Byte := bs ++ zeroBytes (16 - bs.length)

/-- XOR of two byte strings, as long as the shorter one (R13; R245 truncates the keystream). -/
def xorBytes (a b : List Byte) : List Byte := List.zipWith (· ^^^ ·) a b

/-- How many 16-byte blocks cover `n` bytes, `ceil(n / 16)` (R223, R245). -/
def blockCount (n : Nat) : Nat := (n + 15) / 16

/-- The first `n` blocks of a byte string, in order (R184). -/
def toBlocks : Nat → List Byte → List Block
  | 0, _ => []
  | n + 1, bs => bytesBlock (bs.take 16) :: toBlocks n (bs.drop 16)

/-- Blocks concatenated in order (R184). -/
def blocksBytes (bs : List Block) : List Byte := bs.flatMap blockBytes

/-- A block as its four big-endian words W0..W3 (R14). -/
structure Quad where
  w0 : Word
  w1 : Word
  w2 : Word
  w3 : Word
  deriving DecidableEq, Repr

/-- `Wi = be32(B[4i..4i+4))` (R14). -/
def quadOfBlock (b : Block) : Quad where
  w0 := b.extractLsb' 96 32
  w1 := b.extractLsb' 64 32
  w2 := b.extractLsb' 32 32
  w3 := b.extractLsb' 0 32

/-- `bytes32(W0) || bytes32(W1) || bytes32(W2) || bytes32(W3)` (R14). -/
def blockOfQuad (q : Quad) : Block := q.w0 ++ q.w1 ++ q.w2 ++ q.w3

end Sys2Proof.Machine
end

