-- ==== Sys2Proof/Machine/Primitives.lean ====
section
/-! DEFINITION. The primitive functions and constants of spec/40_primitives.md (R140 to R151). The S-box, FK and
CK values are the spec's own, which marks them general knowledge (GK1 to GK3; notes/assumptions/17.md). -/

namespace Sys2Proof.Machine

open Sys2Proof

/-- The rows of the substitution table of R140: row r holds the entries x0 .. xF from left to right. -/
def sboxRow (r : Nat) : Block :=
  match r with
  | 0 => 0xD690E9FECCE13DB716B614C228FB2C05
  | 1 => 0x2B679A762ABE04C3AA44132649860699
  | 2 => 0x9C4250F491EF987A33540B43EDCFAC62
  | 3 => 0xE4B31CA9C908E89580DF94FA758F3FA6
  | 4 => 0x4707A7FCF37317BA83593C19E6854FA8
  | 5 => 0x686B81B27164DA8BF8EB0F4B70569D35
  | 6 => 0x1E240E5E6358D1A225227C3B01217887
  | 7 => 0xD40046579FD327524C3602E7A0C4C89E
  | 8 => 0xEABF8AD240C738B5A3F7F2CEF96115A1
  | 9 => 0xE0AE5DA49B341A55AD933230F58CB1E3
  | 10 => 0x1DF6E22E8266CA60C02923AB0D534E6F
  | 11 => 0xD5DB3745DEFD8E2F03FF6A726D6C5B51
  | 12 => 0x8D1BAF92BBDDBC7F11D95C411F105AD8
  | 13 => 0x0AC13188A5CD7BBD2D74D012B8E5B4B0
  | 14 => 0x8969974A0C96777E65B9F109C56EC684
  | _ => 0x18F07DEC3ADC4D2079EE5F3ED7CB3948

/-- The rows of the inverse table of R141. -/
def invSboxRow (r : Nat) : Block :=
  match r with
  | 0 => 0x716C7AB8160F1E4135EBD02AE4AC625A
  | 1 => 0xCDC8DB1A0A8E0846F04B96C132A060CC
  | 2 => 0xF76D69AA61681B760CA914100ED8A3B7
  | 3 => 0x9BD29A28955F79B286FEF46B4A06FB3E
  | 4 => 0x84CB212B19B37240FF1CE35B78F6AE4E
  | 5 => 0x22BF77AD29975D736549CEBECA9263FA
  | 6 => 0xA78D2F6455E8A51150E1BA51BDBCEDAF
  | 7 => 0x5C54BB45D93C13E66EF827D66AF2E7C7
  | 8 => 0x3852A448EF4D1D6FD3E082579DC0B63D
  | 9 => 0x0124C3993A37E5E2261F1294205E7F74
  | 10 => 0x7C8F678893D43F424F3318AB2E9891C2
  | 11 => 0xDF9E5331DE870907DCE947C4C6D71581
  | 12 => 0xA8D10B177DECEE857E34A6FD04D58B2D
  | 13 => 0xDA66837570B000FCCFC956B1F5C5B439
  | 14 => 0x9005A29F30DD4C7B36028059F32CF925
  | _ => 0xF1EA8A44239CA189588C3B0D43B503B9

/-- The entry at column `c` of a row. -/
def rowEntry (row : Block) (c : Nat) : Byte := row.extractLsb' (8 * (15 - c)) 8

/-- `Sbox(b)`: row b[7:4], column b[3:0] (R140). -/
def sbox (b : Byte) : Byte := rowEntry (sboxRow (b.toNat / 16)) (b.toNat % 16)

/-- `InvSbox(b)` (R141). No command uses it. -/
def invSbox (b : Byte) : Byte := rowEntry (invSboxRow (b.toNat / 16)) (b.toNat % 16)

/-- `rotl(w, n)` for 0 ≤ n < 32 (R142). -/
def rotl (w : Word) (n : Nat) : Word := (w <<< n) ||| (w >>> (32 - n))

/-- `tau(w)`: Sbox on each byte, in place (R143). -/
def tau (w : Word) : Word :=
  sbox (w.extractLsb' 24 8) ++ sbox (w.extractLsb' 16 8) ++ sbox (w.extractLsb' 8 8)
    ++ sbox (w.extractLsb' 0 8)

/-- `L(w)` (R144). -/
def linL (w : Word) : Word := w ^^^ rotl w 2 ^^^ rotl w 10 ^^^ rotl w 18 ^^^ rotl w 24

/-- `Lp(w)` (R145). -/
def linLp (w : Word) : Word := w ^^^ rotl w 13 ^^^ rotl w 23

/-- `Tround(w) = L(tau(w))` (R146). -/
def tRound (w : Word) : Word := linL (tau w)

/-- `Tkey(w) = Lp(tau(w))` (R146). -/
def tKey (w : Word) : Word := linLp (tau w)

/-- `FK[0..3]` (R147). -/
def fk : Quad where
  w0 := 0xA3B1BAC6
  w1 := 0x56AA3350
  w2 := 0x677D9197
  w3 := 0xB27022DC

/-- `CK[0..31]` (R148). -/
def ck : List Word :=
  [0x00070E15, 0x1C232A31, 0x383F464D, 0x545B6269,
   0x70777E85, 0x8C939AA1, 0xA8AFB6BD, 0xC4CBD2D9,
   0xE0E7EEF5, 0xFC030A11, 0x181F262D, 0x343B4249,
   0x50575E65, 0x6C737A81, 0x888F969D, 0xA4ABB2B9,
   0xC0C7CED5, 0xDCE3EAF1, 0xF8FF060D, 0x141B2229,
   0x30373E45, 0x4C535A61, 0x686F767D, 0x848B9299,
   0xA0A7AEB5, 0xBCC3CAD1, 0xD8DFE6ED, 0xF4FB0209,
   0x10171E25, 0x2C333A41, 0x484F565D, 0x646B7279]

/-- `Tk[b] = L(Sbox(b) << (24 - 8k))`, the constant T-tables (R46, R150). -/
def tTable (k : Nat) (b : Byte) : Word := linL ((sbox b).setWidth 32 <<< (24 - 8 * k))

/-- The TABLE backend's transform of a round input word (R150, R187). -/
def tableRound (w : Word) : Word :=
  tTable 0 (w.extractLsb' 24 8) ^^^ tTable 1 (w.extractLsb' 16 8) ^^^ tTable 2 (w.extractLsb' 8 8)
    ^^^ tTable 3 (w.extractLsb' 0 8)

end Sys2Proof.Machine
end

