-- ==== Sys2Proof/Machine/SM4.lean ====
section
/-! DEFINITION. The key schedule (spec/41_key_schedule.md R160 to R163), the block function and its backends
(spec/42_round_engine.md R180, R187 to R189) as functions. The commands that run them are in
Machine/CipherCommands.lean. -/

namespace Sys2Proof.Machine

open Sys2Proof

/-- Wordwise XOR of four words. -/
def quadXor (a b : Quad) : Quad where
  w0 := a.w0 ^^^ b.w0
  w1 := a.w1 ^^^ b.w1
  w2 := a.w2 ^^^ b.w2
  w3 := a.w3 ^^^ b.w3

/-- One round of key expansion: the window K0..K3 becomes K1, K2, K3, rk[i] (R160). -/
def keyRound (k : Quad) (c : Word) : Quad where
  w0 := k.w1
  w1 := k.w2
  w2 := k.w3
  w3 := k.w0 ^^^ tKey (k.w1 ^^^ k.w2 ^^^ k.w3 ^^^ c)

/-- The round keys of the rounds with constants `cs`, from the window `k` (R160). -/
def expandWindow : List Word → Quad → List Word
  | [], _ => []
  | c :: cs, k => (keyRound k c).w3 :: expandWindow cs (keyRound k c)

theorem expandWindow_length (cs : List Word) (k : Quad) : (expandWindow cs k).length = cs.length := by
  induction cs generalizing k with
  | nil => rfl
  | cons c cs ih => simp [expandWindow, ih]

/-- `KeyExpand(key)` (R160). It reads neither BACKEND_SEL nor CAP (R163). -/
def keyExpand (key : Block) : Schedule :=
  Vector.mk (expandWindow ck (quadXor (quadOfBlock key) fk)).toArray
    (by simp [expandWindow_length, ck])

/-- `bytes32(rk[0]) || ... || bytes32(rk[31])` (R105). -/
def scheduleBytes (rk : Schedule) : List Byte := rk.toList.flatMap bytes32

/-- `dir` of R180. -/
inductive Direction where
  | enc
  | dec
  deriving DecidableEq, Repr

/-- The round keys in the order a direction uses them: rk[i], or rk[31 - i] (R180). -/
def roundKeys (rk : Schedule) : Direction → List Word
  | .enc => rk.toList
  | .dec => rk.toList.reverse

/-- One round with the composite transform `t` (R180). -/
def feistelRound (t : Word → Word) (x : Quad) (k : Word) : Quad where
  w0 := x.w1
  w1 := x.w2
  w2 := x.w3
  w3 := x.w0 ^^^ t (x.w1 ^^^ x.w2 ^^^ x.w3 ^^^ k)

/-- The word order of the output, X3, X2, X1, X0 (R180). -/
def quadReverse (q : Quad) : Quad where
  w0 := q.w3
  w1 := q.w2
  w2 := q.w1
  w3 := q.w0

/-- The block function with the composite transform `t` (R180). -/
def cryptWith (t : Word → Word) (rk : Schedule) (dir : Direction) (b : Block) : Block :=
  blockOfQuad (quadReverse ((roundKeys rk dir).foldl (feistelRound t) (quadOfBlock b)))

/-- `SM4Crypt(B, rk, dir)` (R180). -/
def sm4Crypt (rk : Schedule) (dir : Direction) (b : Block) : Block := cryptWith tRound rk dir b

/-- BACKEND (R40, R187). -/
inductive Backend where
  | reference
  | table
  | capScalar
  | batched
  deriving DecidableEq, Repr

/-- BACKEND_SEL[1:0] (R40). -/
def backendOf (b : BitVec 2) : Backend :=
  if b = 0 then .reference else if b = 1 then .table else if b = 2 then .capScalar else .batched

/-- The composite transform a backend computes a round with (R187). -/
def backendTransform : Backend → Word → Word
  | .reference => tRound
  | .table => tableRound
  | .capScalar => tRound
  | .batched => tRound

/-- One block through the selected backend (R187). -/
def engineCrypt (be : Backend) (rk : Schedule) (dir : Direction) (b : Block) : Block :=
  cryptWith (backendTransform be) rk dir b

/-- Block states advanced in lockstep through all rounds (R189). -/
def lockstep (keys : List Word) (lanes : List Quad) : List Quad :=
  keys.foldl (fun ls k => ls.map (fun x => feistelRound tRound x k)) lanes

/-- Blocks through the lockstep path, all lanes together (R189). -/
def lockstepBlocks (rk : Schedule) (dir : Direction) (bs : List Block) : List Block :=
  (lockstep (roundKeys rk dir) (bs.map quadOfBlock)).map (fun q => blockOfQuad (quadReverse q))

/-- `g` groups of four blocks, each in lockstep (R189). -/
def lockstepGroups (rk : Schedule) (dir : Direction) : Nat → List Block → List Block
  | 0, _ => []
  | g + 1, bs => lockstepBlocks rk dir (bs.take 4) ++ lockstepGroups rk dir g (bs.drop 4)

/-- The block commands' blocks through the selected backend (R184, R185, R187, R189): under BATCHED with
CAP = 1 and at least 4 blocks, the largest multiple-of-4 first part in lockstep and the rest one at a time;
otherwise every block on its own. -/
def cryptBlocks (be : Backend) (cap : Bool) (rk : Schedule) (dir : Direction) (bs : List Block) :
    List Block :=
  if be = .batched ∧ cap = true ∧ 4 ≤ bs.length then
    lockstepGroups rk dir (bs.length / 4) bs
      ++ (bs.drop (4 * (bs.length / 4))).map (engineCrypt be rk dir)
  else bs.map (engineCrypt be rk dir)

end Sys2Proof.Machine
end

