-- ==== Sys2Proof/Machine/Operands.lean ====
section
/-! DEFINITION. Where a command's operands come from (spec/30_encoding.md R103, R104; spec/10_state.md R52), and
its input and output ranges with the overlap and range rules (spec/20_memory.md R72, R80). -/

namespace Sys2Proof.Machine

open Sys2Proof

/-- The operand registers a command uses: those latched at the CMD write while one is in flight, else the
registers themselves (R47, R52; notes/assumptions/14.md). -/
def State.operands (s : State) : OperandRegs :=
  match s.core with
  | .idle => s.regs
  | .busy f => f.latch

/-- The backend a command runs on (R40, R187). -/
def State.backend (s : State) : Backend := backendOf s.operands.backend

/-- The 16-byte operand at `a`. -/
def State.readBlock (s : State) (a : Nat) : Block := bytesBlock (s.mem.readBytes a 16)

/-- Input and output ranges of a command (R80). -/
structure RangeSet where
  inputs : List Range
  outputs : List Range
  deriving DecidableEq, Repr

/-- The ranges R103 lists for a command. Block ranges have 16·N bytes, without wrap-around (R104). The tag
buffer is an output of GCM_ENC and an input of GCM_DEC. -/
def commandRanges (i : Instr) (r : OperandRegs) : RangeSet :=
  match i with
  | .ksExpand => ⟨[⟨r.src.toNat, 16⟩], [⟨r.dst.toNat, 128⟩]⟩
  | .sm4SetKey => ⟨[⟨r.src.toNat, 16⟩], []⟩
  | .sm4Enc => ⟨[⟨r.src.toNat, 16⟩], [⟨r.dst.toNat, 16⟩]⟩
  | .sm4Dec => ⟨[⟨r.src.toNat, 16⟩], [⟨r.dst.toNat, 16⟩]⟩
  | .sm4EncBlocks => ⟨[⟨r.src.toNat, 16 * r.len.toNat⟩], [⟨r.dst.toNat, 16 * r.len.toNat⟩]⟩
  | .sm4DecBlocks => ⟨[⟨r.src.toNat, 16 * r.len.toNat⟩], [⟨r.dst.toNat, 16 * r.len.toNat⟩]⟩
  | .sm4Clear => ⟨[], []⟩
  | .gfMul => ⟨[⟨r.src.toNat, 16⟩, ⟨r.src2.toNat, 16⟩], [⟨r.dst.toNat, 16⟩]⟩
  | .ghash => ⟨[⟨r.src.toNat, r.len.toNat⟩, ⟨r.src2.toNat, 16⟩], [⟨r.dst.toNat, 16⟩]⟩
  | .gcmSetKey => ⟨[⟨r.src.toNat, 16⟩], []⟩
  | .gcmSetIv => ⟨[⟨r.src.toNat, r.len.toNat⟩], []⟩
  | .gcmSetAad => ⟨[⟨r.src.toNat, r.len.toNat⟩], []⟩
  | .gcmEnc t => ⟨[⟨r.src.toNat, r.len.toNat⟩], [⟨r.dst.toNat, r.len.toNat⟩, ⟨r.tag.toNat, t.toNat⟩]⟩
  | .gcmDec t => ⟨[⟨r.src.toNat, r.len.toNat⟩, ⟨r.tag.toNat, t.toNat⟩], [⟨r.dst.toNat, r.len.toNat⟩]⟩
  | .gcmClear => ⟨[], []⟩

/-- Two ranges share no byte; an empty range shares none. -/
def Range.disjoint (a b : Range) : Bool :=
  decide (a.len = 0) || decide (b.len = 0) || decide (a.addr + a.len ≤ b.addr)
    || decide (b.addr + b.len ≤ a.addr)

/-- An output range against an input range: disjoint from it or identical to it (R80 (a)). -/
def Range.mayPair (output input : Range) : Bool := output.disjoint input || decide (output = input)

/-- Every range of the list is disjoint from every later one (R80 (b)). -/
def pairwiseDisjoint : List Range → Bool
  | [] => true
  | r :: rs => rs.all (fun r' => r.disjoint r') && pairwiseDisjoint rs

/-- The overlap rule R80. Ranges with n = 0 are left out: they are disjoint from every range. -/
def RangeSet.overlapLegal (io : RangeSet) : Bool :=
  io.outputs.all (fun o => io.inputs.all (fun i => o.mayPair i)) && pairwiseDisjoint io.outputs

/-- The tag buffer stays clear of the other buffers, beyond R80: GCM_ENC's of the plaintext and the ciphertext
(R247), GCM_DEC's of the plaintext buffer (R248; notes/assumptions/19.md). -/
def tagRangeLegal (i : Instr) (r : OperandRegs) : Bool :=
  match i with
  | .gcmEnc t =>
    Range.disjoint ⟨r.tag.toNat, t.toNat⟩ ⟨r.src.toNat, r.len.toNat⟩
      && Range.disjoint ⟨r.tag.toNat, t.toNat⟩ ⟨r.dst.toNat, r.len.toNat⟩
  | .gcmDec t => Range.disjoint ⟨r.tag.toNat, t.toNat⟩ ⟨r.dst.toNat, r.len.toNat⟩
  | .ksExpand | .sm4SetKey | .sm4Enc | .sm4Dec | .sm4EncBlocks | .sm4DecBlocks | .sm4Clear
  | .gfMul | .ghash | .gcmSetKey | .gcmSetIv | .gcmSetAad | .gcmClear => true

/-- The range check of R72 and R73, computed without wrap-around; an empty range is not checked. -/
def Range.fits (memSize : Nat) (r : Range) : Bool :=
  decide (r.len = 0) || decide (r.addr + r.len ≤ memSize)

/-- Every range of a command lies in the data memory. -/
def RangeSet.fits (memSize : Nat) (io : RangeSet) : Bool :=
  io.inputs.all (Range.fits memSize) && io.outputs.all (Range.fits memSize)

/-- A block count of 2^28 or more always exceeds the 32-bit address space and is refused, whatever the addresses
(R104; notes/assumptions/20.md). -/
def blockCountLegal (i : Instr) (r : OperandRegs) : Bool :=
  match i with
  | .sm4EncBlocks => decide (r.len.toNat < 2 ^ 28)
  | .sm4DecBlocks => decide (r.len.toNat < 2 ^ 28)
  | .ksExpand | .sm4SetKey | .sm4Enc | .sm4Dec | .sm4Clear | .gfMul | .ghash | .gcmSetKey | .gcmSetIv
  | .gcmSetAad | .gcmEnc _ | .gcmDec _ | .gcmClear => true

/-- Item 4 of R305: a block range past the address space (R104), an illegal overlap (refused before any access,
R80) or a range out of memory (R72, R73; notes/assumptions/8.md for the order). -/
def rangeRefusal (memSize : Nat) (i : Instr) (r : OperandRegs) : Option Refusal :=
  if blockCountLegal i r = false then some .outOfRange
  else if (commandRanges i r).overlapLegal = false then some .overlap
  else if tagRangeLegal i r = false then some .overlap
  else if (commandRanges i r).fits memSize = false then some .outOfRange
  else none

end Sys2Proof.Machine
end

