-- ==== Sys2Proof/Machine/Ops.lean ====
section
/-! DEFINITION. The operations every command shares: the checks before it (spec/60_exceptions.md R305), its
stores, its ending with or without an error (R300 to R304, R307), accepting a CMD write (spec/10_state.md R31,
R47, R52), and reset (spec/70_reset_and_hazards.md R330, R333). -/

namespace Sys2Proof.Machine

open Sys2Proof

/-- `MemWrite(addr, n, B)` inside a command whose ranges have been checked (R73). -/
def State.store (s : State) (a : Nat) (bs : List Byte) : State :=
  { s with mem := s.mem.writeBytes a bs }

/-- The writes that end a command, applied together (R304). -/
def State.finish (code : ErrCode) (s : State) : State :=
  { s with err := code, done := true, core := .idle }

/-- `complete()` (R16, R304). -/
def complete (s : State) : Host.Outcome State Fault Refusal := .next (s.finish .none)

/-- `raise`: the error is recorded in STATUS.ERR and the core returns to IDLE; nothing is saved, no mode
changes, nothing is vectored (R301, R302, R304, R307). There is no return from it (R308): the next accepted
CMD write clears it. -/
def raise (code : ErrCode) (s : State) : Host.Outcome State Fault Refusal := .next (s.finish code)

/-- What makes the model refuse a command, in the order of R305: a reserved encoding (item 1; a command that
no word encodes, notes/assumptions/18.md); for GCM_ENC and GCM_DEC with IV_SET = 0 nothing more is checked
(item 2, R80, R301); the capacities (item 3); the ranges (item 4). -/
def State.commandRefusal (i : Instr) (s : State) : Option Refusal :=
  let ranges := rangeRefusal s.params.memSize i s.operands
  if i.wf = false then some .reservedEncoding
  else
    match i with
    | .gcmEnc _ => if s.session.ivSet = true then ranges else none
    | .gcmDec _ => if s.session.ivSet = true then ranges else none
    | .gcmSetIv => if s.params.maxIvBytes < s.operands.len.toNat then some .ivCapacity else ranges
    | .gcmSetAad => if s.params.maxAadBytes < s.operands.len.toNat then some .aadCapacity else ranges
    | .ksExpand | .sm4SetKey | .sm4Enc | .sm4Dec | .sm4EncBlocks | .sm4DecBlocks | .sm4Clear
    | .gfMul | .ghash | .gcmSetKey | .gcmClear => ranges

/-- A command's effect after its checks. -/
def State.checked (i : Instr) (s : State) (effect : Host.Outcome State Fault Refusal) :
    Host.Outcome State Fault Refusal :=
  match s.commandRefusal i with
  | some r => .refused r
  | none => effect

/-- The command word and operands latched, CORE_STATE BUSY, DONE and ERR cleared (R31, R47, R52, R304). -/
def State.latchCommand (w : Word) (turns : Nat) (s : State) : State :=
  { s with core := .busy ⟨w, s.regs, turns⟩, done := false, err := .none }

/-- The ranges an accepted command takes ownership of; ranges with n = 0 hold no byte (R82, R341;
notes/assumptions/10.md). -/
def State.own (io : RangeSet) (s : State) : State :=
  { s with ownedIn := s.ownedIn ++ io.inputs, ownedOut := s.ownedOut ++ io.outputs }

/-- An accepted CMD write of the command `i`, encoded by `w` (R31, R82, R304). How long the command stays BUSY
is the head of `busyFor` (R345; notes/assumptions/1.md). -/
def State.acceptCommand (w : Word) (i : Instr) (s : State) : State :=
  ({ s with busyFor := s.busyFor.tail }.own (commandRanges i s.operands)).latchCommand w
    (s.busyFor.headD 0)

/-- A CMD write while IDLE: refused for a reserved encoding (R106) and for every situation R305 refuses, which
the model does at the write already (notes/assumptions/9.md); else accepted. -/
def State.writeCmd (w : Word) (s : State) : Host.Outcome State Fault Refusal :=
  match decode w with
  | .error _ => .refused .reservedEncoding
  | .ok i =>
    match s.commandRefusal i with
    | some r => .refused r
    | none => .next (s.acceptCommand w i)

/-- The command in flight, read from its latched word (R47); none while IDLE or if the word is reserved. -/
def State.fetch (s : State) : Option Instr :=
  match s.core with
  | .idle => none
  | .busy f =>
    match decode f.word with
    | .ok i => some i
    | .error _ => none

/-- Output ranges of the command in flight (R80, R333). -/
def State.inFlightOutputs (s : State) : List Range :=
  match s.fetch with
  | some i => (commandRanges i s.operands).outputs
  | none => []

/-- `n` free bytes, fresh from number `start` on (R333). -/
def freeBytes (start n : Nat) : List Byte := (List.range n).map (fun k => Config.freeByte (start + k))

/-- Each byte of a range that data memory has takes a free value (R333; notes/assumptions/4.md). -/
def scrambleRange (memSize : Nat) (mc : Memory × Nat) (r : Range) : Memory × Nat :=
  (mc.1.writeBytes r.addr ((freeBytes mc.2 r.len).take (memSize - r.addr)), mc.2 + r.len)

/-- `rst` with the level of `cap_in`: every core state element takes its reset value (R330), an in-flight
command is abandoned and the bytes of its output ranges take free values, other data memory is untouched
(R333). The host's own accesses to come are not the core's (notes/assumptions/2.md). -/
def State.applyReset (capIn : Bool) (s : State) : State :=
  let mc := s.inFlightOutputs.foldl (scrambleRange s.params.memSize) (s.mem, s.freeCount)
  { State.resetWith s.params capIn with
      mem := mc.1, freeCount := mc.2, host := s.host, busyFor := s.busyFor, resp := s.resp }

end Sys2Proof.Machine
end

