-- ==== Sys2Proof/Machine/CipherCommands.lean ====
section
/-! DEFINITION. The commands of the key schedule and the round engine (spec/41_key_schedule.md R165, R166;
spec/42_round_engine.md R182 to R186). -/

namespace Sys2Proof.Machine

open Sys2Proof

/-- KS_EXPAND (R165). -/
def execKsExpand (s : State) : Host.Outcome State Fault Refusal :=
  s.checked .ksExpand
    (complete (s.store s.operands.dst.toNat
      (scheduleBytes (keyExpand (s.readBlock s.operands.src.toNat)))))

/-- SM4_SETKEY (R166). -/
def execSm4SetKey (s : State) : Host.Outcome State Fault Refusal :=
  s.checked .sm4SetKey
    (complete { s with
      cipher := { rk := keyExpand (s.readBlock s.operands.src.toNat), keyed := true } })

/-- SM4_ENC (R182). -/
def execSm4Enc (s : State) : Host.Outcome State Fault Refusal :=
  s.checked .sm4Enc
    (complete (s.store s.operands.dst.toNat
      (blockBytes (engineCrypt s.backend s.cipher.rk .enc (s.readBlock s.operands.src.toNat)))))

/-- SM4_DEC (R183). -/
def execSm4Dec (s : State) : Host.Outcome State Fault Refusal :=
  s.checked .sm4Dec
    (complete (s.store s.operands.dst.toNat
      (blockBytes (engineCrypt s.backend s.cipher.rk .dec (s.readBlock s.operands.src.toNat)))))

/-- The LEN input blocks of a block command, through the round engine (R184, R185). -/
def State.cryptedBlocks (s : State) (dir : Direction) : List Byte :=
  blocksBytes (cryptBlocks s.backend s.cap s.cipher.rk dir
    (toBlocks s.operands.len.toNat
      (s.mem.readBytes s.operands.src.toNat (16 * s.operands.len.toNat))))

/-- SM4_ENC_BLOCKS (R184). -/
def execSm4EncBlocks (s : State) : Host.Outcome State Fault Refusal :=
  s.checked .sm4EncBlocks (complete (s.store s.operands.dst.toNat (s.cryptedBlocks .enc)))

/-- SM4_DEC_BLOCKS (R185). -/
def execSm4DecBlocks (s : State) : Host.Outcome State Fault Refusal :=
  s.checked .sm4DecBlocks (complete (s.store s.operands.dst.toNat (s.cryptedBlocks .dec)))

/-- SM4_CLEAR (R186). -/
def execSm4Clear (s : State) : Host.Outcome State Fault Refusal :=
  s.checked .sm4Clear (complete { s with cipher := { rk := Schedule.zero, keyed := false } })

end Sys2Proof.Machine
end

