-- ==== Sys2Proof/Machine/GF.lean ====
section
/-! DEFINITION. The GF(2^128) multiplier and GHASH as functions (spec/43_gf_ghash.md R220, R223). -/

namespace Sys2Proof.Machine

open Sys2Proof

/-- The shifting copy after one bit: `RightShift1`, then 0xE1 into byte 0 if a 1 was shifted out
(R17, R220). -/
def gfShift (v : Block) : Block :=
  if v.getLsbD 0 then (v >>> 1) ^^^ 0xE1000000000000000000000000000000 else v >>> 1

/-- The last `n` bits of `x` still to be processed, from accumulator `z` and shifting copy `v` (R220). Bit i
of R17 is bit 127 - i of the number, so with `n + 1` bits left the current one is bit `n`. -/
def gfLoop (x : Block) : Nat → Block → Block → Block
  | 0, z, _ => z
  | n + 1, z, v => gfLoop x n (if x.getLsbD n then z ^^^ v else z) (gfShift v)

/-- `GFMul(x, y)` (R220). -/
def gfMul (x y : Block) : Block := gfLoop x 128 0 y

/-- `n` more blocks of data into the accumulator `a` (R223). -/
def ghashLoop (h : Block) : Nat → List Byte → Block → Block
  | 0, _, a => a
  | n + 1, d, a => ghashLoop h n (d.drop 16) (gfMul (a ^^^ bytesBlock (padTo16 (d.take 16))) h)

/-- `GHASH(Hk, data)` (R223). -/
def ghash (h : Block) (data : List Byte) : Block := ghashLoop h (blockCount data.length) data 0

end Sys2Proof.Machine
end

