-- ==== Sys2Proof/Machine/GcmFunctions.lean ====
section
/-! DEFINITION. The GCM functions (spec/44_gcm.md R243 to R245). `be` is the backend the block function runs
on; by R188 no result depends on it. -/

namespace Sys2Proof.Machine

open Sys2Proof

/-- `SM4Crypt(·, RK_G, ENC)`. -/
def GcmSession.encrypt (g : GcmSession) (be : Backend) (b : Block) : Block := engineCrypt be g.rk .enc b

/-- The zero padding that fills a part up to a multiple of 16 bytes, `(16 - (n mod 16)) mod 16`
(R243, R245). -/
def padLen (n : Nat) : Nat := (16 - n % 16) % 16

/-- `J0()` (R243). -/
def GcmSession.j0 (g : GcmSession) (p : Params) : Block :=
  if g.iv.length = 12 then bytesBlock (g.iv ++ [0x00, 0x00, 0x00, 0x01])
  else
    match p.ivExpansion with
    | .docPlain => ghash g.h g.iv
    | .nistLengthBlock =>
      ghash g.h (g.iv ++ zeroBytes (padLen g.iv.length + 8) ++ be64bytes (8 * g.iv.length))

/-- `inc32(CB)` (R244). -/
def inc32 (cb : Block) : Block := cb.extractLsb' 32 96 ++ (cb.extractLsb' 0 32 + 1)

/-- `n` more blocks of counter mode from counter block `cb`, with block cipher `e` (R245). -/
def gctrLoop (e : Block → Block) : Nat → Block → List Byte → List Byte
  | 0, _, _ => []
  | n + 1, cb, d =>
    xorBytes (d.take 16) (blockBytes (e (inc32 cb))) ++ gctrLoop e n (inc32 cb) (d.drop 16)

/-- `GCTR(J0, D)` with block cipher `e` (R245). -/
def gctr (e : Block → Block) (j0 : Block) (d : List Byte) : List Byte :=
  gctrLoop e (blockCount d.length) j0 d

/-- `AuthInput(A, C)` (R245). -/
def authInput (layout : AuthLayout) (a c : List Byte) : List Byte :=
  match layout with
  | .docConcat => a ++ c ++ be64bytes (8 * a.length) ++ be64bytes (8 * c.length)
  | .nistPadded =>
    a ++ zeroBytes (padLen a.length) ++ c ++ zeroBytes (padLen c.length)
      ++ be64bytes (8 * a.length) ++ be64bytes (8 * c.length)

/-- `Tag(C, t)` (R245). -/
def GcmSession.tag (g : GcmSession) (p : Params) (be : Backend) (c : List Byte) (t : Nat) : List Byte :=
  (blockBytes (ghash g.h (authInput p.authLayout g.aad c) ^^^ g.encrypt be (g.j0 p))).take t

/-- `GCTR(J0(), D)`. -/
def GcmSession.ctr (g : GcmSession) (p : Params) (be : Backend) (d : List Byte) : List Byte :=
  gctr (g.encrypt be) (g.j0 p) d

end Sys2Proof.Machine
end

