-- ==== Sys2Proof/Machine/GcmCommands.lean ====
section
/-! DEFINITION. The commands of the GCM control (spec/44_gcm.md R240 to R242, R246 to R249). -/

namespace Sys2Proof.Machine

open Sys2Proof

/-- The session after GCM_SETKEY with a key: RK_G, H and G_KEYED, nothing else (R240). -/
def GcmSession.withKey (g : GcmSession) (be : Backend) (key : Block) : GcmSession :=
  { g with rk := keyExpand key, h := engineCrypt be (keyExpand key) .enc 0, keyed := true }

/-- GCM_SETKEY (R240). -/
def execGcmSetKey (s : State) : Host.Outcome State Fault Refusal :=
  s.checked .gcmSetKey
    (complete { s with
      session := s.session.withKey s.backend (s.readBlock s.operands.src.toNat) })

/-- GCM_SETIV (R241). -/
def execGcmSetIv (s : State) : Host.Outcome State Fault Refusal :=
  s.checked .gcmSetIv
    (complete { s with
      session := { s.session with
        iv := s.mem.readBytes s.operands.src.toNat s.operands.len.toNat
        ivSet := decide (0 < s.operands.len.toNat) || s.params.emptyIvCountsAsSet } })

/-- GCM_SETAAD (R242). -/
def execGcmSetAad (s : State) : Host.Outcome State Fault Refusal :=
  s.checked .gcmSetAad
    (complete { s with
      session := { s.session with
        aad := s.mem.readBytes s.operands.src.toNat s.operands.len.toNat } })

/-- The LEN bytes at SRC: the plaintext of GCM_ENC, the ciphertext of GCM_DEC. -/
def State.gcmInput (s : State) : List Byte :=
  s.mem.readBytes s.operands.src.toNat s.operands.len.toNat

/-- GCM_ENC (R247). -/
def execGcmEnc (t : BitVec 5) (s : State) : Host.Outcome State Fault Refusal :=
  s.checked (.gcmEnc t)
    (if s.session.ivSet = false then raise .invalidState s
     else
      let c := s.session.ctr s.params s.backend s.gcmInput
      complete ((s.store s.operands.dst.toNat c).store s.operands.tag.toNat
        (s.session.tag s.params s.backend c t.toNat)))

/-- GCM_DEC: the tag is verified before anything is decrypted (R248). -/
def execGcmDec (t : BitVec 5) (s : State) : Host.Outcome State Fault Refusal :=
  s.checked (.gcmDec t)
    (if s.session.ivSet = false then raise .invalidState s
     else
      if s.session.tag s.params s.backend s.gcmInput t.toNat
          ≠ s.mem.readBytes s.operands.tag.toNat t.toNat then
        raise .authFail s
      else
        complete (s.store s.operands.dst.toNat (s.session.ctr s.params s.backend s.gcmInput)))

/-- The session after GCM_CLEAR (R249): keys zero; the IV and AAD buffers empty, or zero-filled at the length
they have. -/
def GcmSession.clear (g : GcmSession) (mode : ClearIvMode) : GcmSession :=
  match mode with
  | .empty => { rk := Schedule.zero, h := 0, iv := [], ivSet := false, aad := [], keyed := false }
  | .zeroFill =>
    { rk := Schedule.zero, h := 0, iv := zeroBytes g.iv.length, ivSet := g.ivSet,
      aad := zeroBytes g.aad.length, keyed := false }

/-- GCM_CLEAR (R249). -/
def execGcmClear (s : State) : Host.Outcome State Fault Refusal :=
  s.checked .gcmClear (complete { s with session := s.session.clear s.params.clearIvMode })

end Sys2Proof.Machine
end

