-- ==== Sys2Proof/Machine/GfCommands.lean ====
section
/-! DEFINITION. The commands of the Galois-field engine (spec/43_gf_ghash.md R222, R224). -/

namespace Sys2Proof.Machine

open Sys2Proof

/-- GF_MUL (R222). -/
def execGfMul (s : State) : Host.Outcome State Fault Refusal :=
  s.checked .gfMul
    (complete (s.store s.operands.dst.toNat
      (blockBytes (gfMul (s.readBlock s.operands.src.toNat) (s.readBlock s.operands.src2.toNat)))))

/-- GHASH (R224). -/
def execGhash (s : State) : Host.Outcome State Fault Refusal :=
  s.checked .ghash
    (complete (s.store s.operands.dst.toNat
      (blockBytes (ghash (s.readBlock s.operands.src2.toNat)
        (s.mem.readBytes s.operands.src.toNat s.operands.len.toNat)))))

end Sys2Proof.Machine
end

