-- ==== Sys2Proof/Machine/Dispatch.lean ====
section
/-! DEFINITION. One arm per command: the core runs it to completion (spec/30_encoding.md R102). -/

namespace Sys2Proof.Machine

open Sys2Proof

def exec (i : Instr) (s : State) : Host.Outcome State Fault Refusal :=
  match i with
  -- key schedule and round engine
  | .ksExpand => Sys2Proof.Machine.execKsExpand s
  | .sm4SetKey => Sys2Proof.Machine.execSm4SetKey s
  | .sm4Enc => Sys2Proof.Machine.execSm4Enc s
  | .sm4Dec => Sys2Proof.Machine.execSm4Dec s
  | .sm4EncBlocks => Sys2Proof.Machine.execSm4EncBlocks s
  | .sm4DecBlocks => Sys2Proof.Machine.execSm4DecBlocks s
  | .sm4Clear => Sys2Proof.Machine.execSm4Clear s
  -- GF engine
  | .gfMul => Sys2Proof.Machine.execGfMul s
  | .ghash => Sys2Proof.Machine.execGhash s
  -- GCM control
  | .gcmSetKey => Sys2Proof.Machine.execGcmSetKey s
  | .gcmSetIv => Sys2Proof.Machine.execGcmSetIv s
  | .gcmSetAad => Sys2Proof.Machine.execGcmSetAad s
  | .gcmEnc t => Sys2Proof.Machine.execGcmEnc t s
  | .gcmDec t => Sys2Proof.Machine.execGcmDec t s
  | .gcmClear => Sys2Proof.Machine.execGcmClear s

end Sys2Proof.Machine
end

