-- ==== Sys2Proof/Machine/HostPort.lean ====
section
/-! DEFINITION. What the host can do to the core: the register window (spec/10_state.md R32 to R41, R51;
spec/20_memory.md R79), its own data-memory accesses (spec/20_memory.md R70, R82), the hazards
(spec/70_reset_and_hazards.md R340, R341), polling and reset. -/

namespace Sys2Proof.Machine

open Sys2Proof

/-- Bytes of the register window (R32). -/
def windowSize : Nat := 256

/-- Byte offsets of the registers (R32). -/
def offCmd : Nat := 0x00
def offStatus : Nat := 0x04
def offSrc : Nat := 0x08
def offSrc2 : Nat := 0x0C
def offDst : Nat := 0x10
def offLen : Nat := 0x14
def offTag : Nat := 0x18
def offBackendSel : Nat := 0x1C

/-- The access has a byte in the register window (R32, R79). -/
def touchesWindow (p : Params) (addr width : Nat) : Bool :=
  !(Range.disjoint ⟨addr, width⟩ ⟨p.regBase, windowSize⟩)

/-- A 32-bit access at an offset that is a multiple of 4, inside the window (R79). -/
def isWordAccess (p : Params) (addr width : Nat) : Bool :=
  decide (width = 4) && decide (p.regBase ≤ addr) && decide ((addr - p.regBase) % 4 = 0)
    && decide (addr + width ≤ p.regBase + windowSize)

/-- A write of operand registers: refused while BUSY (R340), else it takes effect at once (R342). -/
def State.writeRegs (r : OperandRegs) (s : State) : Host.Outcome State Fault Refusal :=
  if s.busy = true then .refused .hostHazard else .next { s with regs := r }

/-- A word write at an offset of the window. STATUS and the reserved offsets ignore it, BUSY or not
(R34, R41, R340); BACKEND_SEL keeps bits 1:0 (R40). -/
def State.writeReg (off : Nat) (v : Word) (s : State) : Host.Outcome State Fault Refusal :=
  if off = offCmd then (if s.busy = true then .refused .hostHazard else s.writeCmd v)
  else if off = offSrc then s.writeRegs { s.regs with src := v }
  else if off = offSrc2 then s.writeRegs { s.regs with src2 := v }
  else if off = offDst then s.writeRegs { s.regs with dst := v }
  else if off = offLen then s.writeRegs { s.regs with len := v }
  else if off = offTag then s.writeRegs { s.regs with tag := v }
  else if off = offBackendSel then s.writeRegs { s.regs with backend := v.extractLsb' 0 2 }
  else .next s

/-- The value a word read at an offset other than STATUS returns: CMD and the reserved offsets read 0
(R33, R41), BACKEND_SEL[31:2] reads 0 (R40). -/
def State.regValue (off : Nat) (s : State) : Word :=
  if off = offSrc then s.regs.src
  else if off = offSrc2 then s.regs.src2
  else if off = offDst then s.regs.dst
  else if off = offLen then s.regs.len
  else if off = offTag then s.regs.tag
  else if off = offBackendSel then s.regs.backend.setWidth 32
  else 0

/-- A read of STATUS (R34, R51). Reading BUSY = 0 gives every owned range back to the host (R82, R341). -/
def State.readStatus (s : State) : State :=
  match s.core with
  | .busy _ =>
    { s with
      resp := some (.word (s.busyStatus (Config.freeStatusBits s.freeCount)))
      freeCount := s.freeCount + 1 }
  | .idle => { s with resp := some (.word s.idleStatus), ownedIn := [], ownedOut := [] }

/-- A word read at an offset of the window. -/
def State.readReg (off : Nat) (s : State) : State :=
  if off = offStatus then s.readStatus else { s with resp := some (.word (s.regValue off)) }

/-- A write on the register bus. One that has no byte in the window does not reach the core
(notes/assumptions/12.md); one on the window that is no aligned 32-bit access is refused (R79). The spec gives no
order between that and the refusal of a register write while BUSY (R340): a write that meets both is reported as
BadRegisterAccess, a DESIGN CHOICE (notes/assumptions/23.md). -/
def State.busWrite (addr width : Nat) (v : Word) (s : State) : Host.Outcome State Fault Refusal :=
  if touchesWindow s.params addr width = false then .next s
  else if isWordAccess s.params addr width = false then .refused .badRegisterAccess
  else s.writeReg (addr - s.params.regBase) v

/-- A read on the register bus, likewise. -/
def State.busRead (addr width : Nat) (s : State) : Host.Outcome State Fault Refusal :=
  if touchesWindow s.params addr width = false then .next s
  else if isWordAccess s.params addr width = false then .refused .badRegisterAccess
  else .next (s.readReg (addr - s.params.regBase))

/-- A range shares a byte with one of the list. -/
def meetsAny (r : Range) (rs : List Range) : Bool := rs.any (fun r' => !(r.disjoint r'))

/-- A host write to data memory: not to a byte the core owns (R341), and only to addresses data memory has
(R70). One that meets both is the fault of an absent address, a DESIGN CHOICE (notes/assumptions/11.md). -/
def State.hostMemWrite (a : Nat) (bs : List Byte) (s : State) : Host.Outcome State Fault Refusal :=
  if Range.fits s.params.memSize ⟨a, bs.length⟩ = false then .fault .hostAddressAbsent
  else if meetsAny ⟨a, bs.length⟩ s.ownedIn = true ∨ meetsAny ⟨a, bs.length⟩ s.ownedOut = true then
    .refused .hostHazard
  else .next (s.store a bs)

/-- A host read of data memory: not of a byte of an output range the core owns (R341); the same order. -/
def State.hostMemRead (a n : Nat) (s : State) : Host.Outcome State Fault Refusal :=
  if Range.fits s.params.memSize ⟨a, n⟩ = false then .fault .hostAddressAbsent
  else if meetsAny ⟨a, n⟩ s.ownedOut = true then .refused .hostHazard
  else .next { s with resp := some (.bytes (s.mem.readBytes a n)) }

/-- One host access. `wait` polls STATUS and stays the next access while it reads BUSY = 1 (R108). -/
def State.hostOp (op : HostOp) (s : State) : Host.Outcome State Fault Refusal :=
  match op with
  | .write addr width v => s.busWrite addr width v
  | .read addr width => s.busRead addr width
  | .wait => .next (if s.busy = true then { s.readStatus with host := .wait :: s.host } else s.readStatus)
  | .memWrite a bs => s.hostMemWrite a bs
  | .memRead a n => s.hostMemRead a n
  | .reset capIn => .next (s.applyReset capIn)

/-- The host's turn: its next access, or nothing if it makes none (R331). -/
def State.hostTurn (s : State) : Host.Outcome State Fault Refusal :=
  match s.host with
  | [] => .next s
  | op :: rest => { s with host := rest }.hostOp op

end Sys2Proof.Machine
end

