-- ==== Sys2Proof/Machine/Step.lean ====
section
/-! DEFINITION. One step (spec/10_state.md R31; spec/20_memory.md R82; spec/70_reset_and_hazards.md R345): the core
runs the command in flight to completion, or the host has its turn. -/

namespace Sys2Proof.Machine

open Sys2Proof

/-- The core's move: it runs the command its latched word encodes (R47, R82). -/
def runInFlight (s : State) : Host.Outcome State Fault Refusal :=
  match s.fetch with
  | some i => exec i s
  | none => .refused .reservedEncoding

/-- While IDLE the host has its turn. While BUSY the host has as many turns as the command still takes, then
the core completes it (R345; notes/assumptions/1.md). -/
def step (s : State) : Host.Outcome State Fault Refusal :=
  match s.core with
  | .idle => s.hostTurn
  | .busy f =>
    match f.turns with
    | 0 => runInFlight s
    | n + 1 => { s with core := .busy { f with turns := n } }.hostTurn

/-- `s` with the command word `w` where the core takes its next command from: the latch of an accepted CMD
write (R47), with no host turn before the core runs it. A command is one 32-bit word; the bits above `nbits`
are zero. What it takes beside the word is what every accepted CMD write does (R31, R304): CORE_STATE BUSY,
the operand registers latched as they stand, DONE and ERR cleared. -/
def State.withFetchWord (s : State) (nbits w : Nat) : State :=
  s.latchCommand (BitVec.ofNat 32 (w % 2 ^ nbits)) 0

end Sys2Proof.Machine
end

