-- ==== Sys2Proof/Machine/HostProgram.lean ====
section
/-! DEFINITION. The host program notation (spec/30_encoding.md R108, R109): the pseudo-instructions and their
expansion into host accesses. -/

namespace Sys2Proof.Machine

open Sys2Proof

/-- `wr REG, imm32`: one aligned 32-bit write (R108). -/
def wr (p : Params) (off : Nat) (v : Word) : HostOp := .write (p.regBase + off) 4 v

/-- `rd REG`: one aligned 32-bit read (R108). -/
def rd (p : Params) (off : Nat) : HostOp := .read (p.regBase + off) 4

/-- The command mnemonics of R109, operands in the order written there, and `BACKEND n`. -/
inductive Pseudo where
  | ksExpand (dst src : Word)
  | sm4SetKey (src : Word)
  | sm4Enc (dst src : Word)
  | sm4Dec (dst src : Word)
  | sm4EncB (dst src n : Word)
  | sm4DecB (dst src n : Word)
  | sm4Clear
  | gfMul (dst x y : Word)
  | ghash (dst src len h : Word)
  | gcmSetKey (src : Word)
  | gcmSetIv (src len : Word)
  | gcmSetAad (src len : Word)
  | gcmEnc (dst src len tag : Word) (t : BitVec 5)
  | gcmDec (dst src len tag : Word) (t : BitVec 5)
  | gcmClear
  | backend (n : BitVec 2)
  deriving DecidableEq, Repr

/-- The expansions of R109: operand-register writes, the CMD write, `wait`. -/
def Pseudo.expand (p : Params) : Pseudo → List HostOp
  | .ksExpand dst src => [wr p offSrc src, wr p offDst dst, wr p offCmd 0x01, .wait]
  | .sm4SetKey src => [wr p offSrc src, wr p offCmd 0x02, .wait]
  | .sm4Enc dst src => [wr p offSrc src, wr p offDst dst, wr p offCmd 0x03, .wait]
  | .sm4Dec dst src => [wr p offSrc src, wr p offDst dst, wr p offCmd 0x04, .wait]
  | .sm4EncB dst src n =>
    [wr p offSrc src, wr p offDst dst, wr p offLen n, wr p offCmd 0x05, .wait]
  | .sm4DecB dst src n =>
    [wr p offSrc src, wr p offDst dst, wr p offLen n, wr p offCmd 0x06, .wait]
  | .sm4Clear => [wr p offCmd 0x07, .wait]
  | .gfMul dst x y => [wr p offSrc x, wr p offSrc2 y, wr p offDst dst, wr p offCmd 0x11, .wait]
  | .ghash dst src len h =>
    [wr p offSrc src, wr p offSrc2 h, wr p offDst dst, wr p offLen len, wr p offCmd 0x12, .wait]
  | .gcmSetKey src => [wr p offSrc src, wr p offCmd 0x21, .wait]
  | .gcmSetIv src len => [wr p offSrc src, wr p offLen len, wr p offCmd 0x22, .wait]
  | .gcmSetAad src len => [wr p offSrc src, wr p offLen len, wr p offCmd 0x23, .wait]
  | .gcmEnc dst src len tag t =>
    [wr p offSrc src, wr p offDst dst, wr p offLen len, wr p offTag tag,
      wr p offCmd ((t.setWidth 32 <<< 8) ||| 0x24), .wait]
  | .gcmDec dst src len tag t =>
    [wr p offSrc src, wr p offDst dst, wr p offLen len, wr p offTag tag,
      wr p offCmd ((t.setWidth 32 <<< 8) ||| 0x25), .wait]
  | .gcmClear => [wr p offCmd 0x26, .wait]
  | .backend n => [wr p offBackendSel (n.setWidth 32)]

/-- A host program in order, before what the host was going to do anyway. -/
def State.withProgram (s : State) (ops : List HostOp) : State := { s with host := ops ++ s.host }

/-- `.mem addr, bytes`: launch content of data memory (R75, R108). -/
def State.withMem (s : State) (a : Nat) (bs : List Byte) : State :=
  { s with mem := s.mem.writeBytes a bs }

end Sys2Proof.Machine
end

