-- ==== Sys2Proof/Safety.lean ====
section
/-! DEFINITION. What claims about the core are stated in: the invariant of its runs, and the spec's words for
ranges and for what a command leaves behind, as propositions. -/

namespace Sys2Proof.Machine

open Sys2Proof

/-- Every byte of `[a, a+n)` is in the data memory; an empty range always is (R72, R73). -/
abbrev InMemory (s : State) (a n : Nat) : Prop := n = 0 ∨ a + n ≤ s.params.memSize

/-- `[a, a+n)` and `[b, b+m)` share no byte (R80). -/
abbrev Apart (a n b m : Nat) : Prop := n = 0 ∨ m = 0 ∨ a + n ≤ b ∨ b + m ≤ a

/-- The output range `[a, a+n)` is disjoint from the input range `[b, b+m)` or identical to it (R80 (a)). -/
abbrev InPlaceOrApart (a n b m : Nat) : Prop := (a = b ∧ n = m) ∨ Apart a n b m

/-- The checks of R305 before item 4 let the command through: it is one the encoding admits, GCM_ENC and GCM_DEC
have an IV, and the capacities hold. -/
def ReachesRangeChecks (i : Instr) (s : State) : Prop :=
  i.wf = true ∧
  (∀ n, i = .gcmEnc n ∨ i = .gcmDec n → s.session.ivSet = true) ∧
  (i = .gcmSetIv → s.operands.len.toNat ≤ s.params.maxIvBytes) ∧
  (i = .gcmSetAad → s.operands.len.toNat ≤ s.params.maxAadBytes)

/-- The tag buffer of GCM_ENC or GCM_DEC is clear of the buffers R247 and R248 name. -/
def TagClear (i : Instr) (s : State) : Prop :=
  (∀ n, i = .gcmEnc n →
    Apart s.operands.tag.toNat n.toNat s.operands.src.toNat s.operands.len.toNat ∧
    Apart s.operands.tag.toNat n.toNat s.operands.dst.toNat s.operands.len.toNat) ∧
  ∀ n, i = .gcmDec n →
    Apart s.operands.tag.toNat n.toNat s.operands.dst.toNat s.operands.len.toNat

/-- A block command's count keeps its ranges within the 32-bit address space (R104). -/
def BlockCountLegal (i : Instr) (s : State) : Prop :=
  i = .sm4EncBlocks ∨ i = .sm4DecBlocks → s.operands.len.toNat < 2 ^ 28

/-- The overlap rule R80 holds of a command's ranges. -/
def OverlapLegal (io : RangeSet) : Prop :=
  (∀ o ∈ io.outputs, ∀ i ∈ io.inputs, InPlaceOrApart o.addr o.len i.addr i.len) ∧
  io.outputs.Pairwise (fun a b => Apart a.addr a.len b.addr b.len)

/-- Every range of a command is in the data memory. -/
def AllInMemory (s : State) (io : RangeSet) : Prop :=
  ∀ r ∈ io.inputs ++ io.outputs, InMemory s r.addr r.len

/-- Memory `m'` is memory `m` with the byte string `bs` at `a`, and no other byte changed. -/
def Overwritten (m m' : Memory) (a : Nat) (bs : List Byte) : Prop :=
  ∀ x, m'.readByte x = if a ≤ x ∧ x < a + bs.length then bs.getD (x - a) 0 else m.readByte x

/-- `t` is `s` after a command that ended with `code` and changed nothing but data memory and the status
(R304): every register, both contexts, CAP, the ownership and the host's side are as before. -/
def EndsMemoryOnly (s t : State) (code : ErrCode) : Prop :=
  t = { s with mem := t.mem, core := .idle, done := true, err := code }

/-- The ranges of a command are ranges the core owns (R82). -/
def State.ownsRangesOf (s : State) (i : Instr) : Prop :=
  (∀ r ∈ (commandRanges i s.operands).inputs, r ∈ s.ownedIn)
    ∧ ∀ r ∈ (commandRanges i s.operands).outputs, r ∈ s.ownedOut

/-- What holds of the core in every run from reset, for all parameters within R11's bounds. -/
structure State.Inv (s : State) : Prop where
  /-- The parameters are within their bounds (R11). -/
  paramsWf : s.params.wf = true
  /-- Data memory is in canonical form. -/
  memWf : s.mem.wf
  /-- Data memory has no address at or above MEM_SIZE (R70). -/
  memInRange : ∀ c ∈ s.mem, c.1 < s.params.memSize
  /-- IVLEN ≤ MAX_IV_BYTES (R43). -/
  ivFits : s.session.iv.length ≤ s.params.maxIvBytes
  /-- AADLEN ≤ MAX_AAD_BYTES (R43). -/
  aadFits : s.session.aad.length ≤ s.params.maxAadBytes
  /-- With IV_SET = 0 the stored IV is empty (R241, R249). -/
  ivUnset : s.session.ivSet = false → s.session.iv = []
  /-- With C_KEYED = 0 the schedule is zero (R48, R186). -/
  cipherUnkeyed : s.cipher.keyed = false → s.cipher.rk = Schedule.zero
  /-- With G_KEYED = 0 the session's schedule and H are zero (R48, R249). -/
  sessionUnkeyed : s.session.keyed = false → s.session.rk = Schedule.zero ∧ s.session.h = 0
  /-- H always belongs to the most recent key (R240). -/
  subkey : s.session.keyed = true → s.session.h = sm4Crypt s.session.rk .enc 0
  /-- ERR and DONE are cleared together (R34, R304). -/
  errNeedsDone : s.done = false → s.err = .none
  /-- A command in flight is one the model accepted: DONE is 0, its operands are what the registers still
  hold (R52), its word encodes a command that nothing refuses, and the core owns its ranges (R82). -/
  inFlight : ∀ f, s.core = .busy f →
    s.done = false ∧ f.latch = s.regs ∧
      ∃ i, decode f.word = .ok i ∧ s.commandRefusal i = none ∧ s.ownsRangesOf i

/-- The next access of the host in `s` is `op`, and it is the host's turn: the core is IDLE, or BUSY with host
turns left. -/
def HostMoves (s : State) (op : HostOp) (rest : List HostOp) : Prop :=
  s.host = op :: rest ∧ ∀ f, s.core = .busy f → f.turns ≠ 0

/-- `s` as it stands when the host's access is carried out: the access is taken off the list, and one of the
host turns of a command in flight is used up. -/
def afterTurn (s : State) (rest : List HostOp) : State :=
  match s.core with
  | .idle => { s with host := rest }
  | .busy f => { s with host := rest, core := .busy { f with turns := f.turns - 1 } }

/-- `s` with another backend selected and another capability level, in the registers and in the latch of a
command in flight. -/
def State.withEngine (be : BitVec 2) (cap : Bool) (s : State) : State :=
  { s with
    cap := cap
    regs := { s.regs with backend := be }
    core := match s.core with
      | .idle => .idle
      | .busy f => .busy { f with latch := { f.latch with backend := be } } }

/-- A step's outcome with a change made to its next state. -/
def mapNext (g : State → State) : Host.Outcome State Fault Refusal → Host.Outcome State Fault Refusal
  | .next t => .next (g t)
  | .fault r => .fault r
  | .refused r => .refused r

/-- `s` and `t` differ at most in what the host cannot read: RK_C, RK_G, H, IVBUF and AADBUF (R311). -/
def SameButSecrets (s t : State) : Prop :=
  t = { s with
    cipher := { s.cipher with rk := t.cipher.rk }
    session := { s.session with
      rk := t.session.rk, h := t.session.h, iv := t.session.iv, aad := t.session.aad } }

end Sys2Proof.Machine
end

