-- ==== Sys2Proof/Certificates/Slice0/Obligations.lean ====
section
/-! DEFINITION. The statements about the SM4-GCM core. `key`, `P`, `C` and so on are spelled out as the bytes read
where the command reads them; a statement about a command holds for every state, so for every parameter value,
every backend and every content of memory. -/

open Sys2Proof Sys2Proof.Machine

/-! ### The command word -/

/-- A word decodes to a command exactly when the command is well-formed and encodes to that word: no bit of a
command word is dropped, and each command has one word (R33, R100, R102, R106). This holds for every 32-bit word
and every command with every operand value. -/
def Obligations.DecodeInvertsEncode : Prop :=
  ∀ (w : Word) (i : Instr), decode w = .ok i ↔ i.wf = true ∧ encode i = w

/-- Words written out from the spec's encodings, one or more per family (R100, R102, V24). -/
def Obligations.SpecWordsDecode : Prop :=
  decode 0b00000000000000000000000000000001 = .ok .ksExpand ∧
  decode 0b00000000000000000000000000000110 = .ok .sm4DecBlocks ∧
  decode 0b00000000000000000000000000010010 = .ok .ghash ∧
  decode 0b00000000000000000000000000100010 = .ok .gcmSetIv ∧
  decode 0b00000000000000000001000000100100 = .ok (.gcmEnc 16) ∧
  decode 0b00000000000000000000110000100101 = .ok (.gcmDec 12)

/-- R106: a CMD write while IDLE is refused as a reserved encoding exactly when one of the rule's five
conditions holds; the opcodes are those of R102. -/
def Obligations.ReservedEncodingRefused : Prop :=
  ∀ (s : State) (w : Word) (rest : List HostOp),
    s.core = .idle → HostMoves s (.write s.params.regBase 4 w) rest →
    (step s = .refused .reservedEncoding ↔
      (w.extractLsb' 13 19 ≠ 0 ∨
       w.extractLsb' 6 2 ≠ 0 ∨
       (w.extractLsb' 0 6).toNat ∉
          [0x01, 0x02, 0x03, 0x04, 0x05, 0x06, 0x07, 0x11, 0x12, 0x21, 0x22, 0x23, 0x24, 0x25, 0x26] ∨
       ((w.extractLsb' 0 6 = 0x24 ∨ w.extractLsb' 0 6 = 0x25) ∧ 16 < (w.extractLsb' 8 5).toNat) ∨
       (w.extractLsb' 0 6 ≠ 0x24 ∧ w.extractLsb' 0 6 ≠ 0x25 ∧ w.extractLsb' 8 5 ≠ 0)))

/-- R109: each command mnemonic expands to the writes of its operands in the order R109 gives, then the CMD
write of its command word, then `wait`, and writes no other register; the word is the one that encodes the
command. `BACKEND n` writes BACKEND_SEL. -/
def Obligations.MnemonicsWriteTheirCommand : Prop :=
  ∀ (p : Params) (dst src src2 len tag : Word) (t : BitVec 5) (n : BitVec 2),
    (∀ (m : Pseudo) (writes : List (Nat × Word)) (w : Word) (i : Instr), (m, writes, w, i) ∈
        [(Pseudo.ksExpand dst src, [(0x08, src), (0x10, dst)], (0x00000001 : Word), Instr.ksExpand),
          (.sm4SetKey src, [(0x08, src)], 0x00000002, .sm4SetKey),
          (.sm4Enc dst src, [(0x08, src), (0x10, dst)], 0x00000003, .sm4Enc),
          (.sm4Dec dst src, [(0x08, src), (0x10, dst)], 0x00000004, .sm4Dec),
          (.sm4EncB dst src len, [(0x08, src), (0x10, dst), (0x14, len)], 0x00000005, .sm4EncBlocks),
          (.sm4DecB dst src len, [(0x08, src), (0x10, dst), (0x14, len)], 0x00000006, .sm4DecBlocks),
          (.sm4Clear, [], 0x00000007, .sm4Clear),
          (.gfMul dst src src2, [(0x08, src), (0x0C, src2), (0x10, dst)], 0x00000011, .gfMul),
          (.ghash dst src len src2, [(0x08, src), (0x0C, src2), (0x10, dst), (0x14, len)], 0x00000012, .ghash),
          (.gcmSetKey src, [(0x08, src)], 0x00000021, .gcmSetKey),
          (.gcmSetIv src len, [(0x08, src), (0x14, len)], 0x00000022, .gcmSetIv),
          (.gcmSetAad src len, [(0x08, src), (0x14, len)], 0x00000023, .gcmSetAad),
          (.gcmEnc dst src len tag t, [(0x08, src), (0x10, dst), (0x14, len), (0x18, tag)],
            (t.setWidth 32 <<< 8) ||| 0x24, .gcmEnc t),
          (.gcmDec dst src len tag t, [(0x08, src), (0x10, dst), (0x14, len), (0x18, tag)],
            (t.setWidth 32 <<< 8) ||| 0x25, .gcmDec t),
          (.gcmClear, [], 0x00000026, .gcmClear)] →
      m.expand p = writes.map (fun x => .write (p.regBase + x.1) 4 x.2) ++ [.write p.regBase 4 w, .wait] ∧
      encode i = w) ∧
    (Pseudo.backend n).expand p = [.write (p.regBase + 0x1C) 4 (n.setWidth 32)]

/-! ### A step -/

/-- The core's move runs the command its latched word encodes (R31, R47, R82). -/
def Obligations.StepRunsTheLatchedCommand : Prop :=
  ∀ (s : State) (f : InFlight) (i : Instr),
    s.core = .busy f → f.turns = 0 → decode f.word = .ok i → step s = exec i s

/-- A CMD write while IDLE of a command nothing refuses starts it: the word and the operand registers are
latched, DONE and ERR are cleared, the core is BUSY and owns the command's ranges; nothing else changes (R31,
R47, R52, R82, R304). The turns it stays BUSY are the model's own (DESIGN CHOICE, notes/assumptions/1.md), and
that a refusal is decided at the write already is the model's reading (DEDUCED, notes/assumptions/9.md). So is
that the new ranges join those still owned, whatever the outcome will be (DEDUCED, notes/assumptions/10.md). -/
def Obligations.AcceptedWriteStartsTheCommand : Prop :=
  ∀ (s : State) (w : Word) (i : Instr) (rest : List HostOp),
    s.core = .idle → HostMoves s (.write s.params.regBase 4 w) rest →
    decode w = .ok i → s.commandRefusal i = none →
    step s = .next { s with
      host := rest
      busyFor := s.busyFor.tail
      core := .busy { word := w, latch := s.regs, turns := s.busyFor.headD 0 }
      done := false
      err := .none
      ownedIn := s.ownedIn ++ (commandRanges i s.regs).inputs
      ownedOut := s.ownedOut ++ (commandRanges i s.regs).outputs }

/-! ### Key schedule and round engine -/

/-- KS_EXPAND completes whenever its ranges are in memory and apart: DST takes the 128 bytes of the round keys
of the key at SRC, and nothing else changes but the status (R103, R105, R165). -/
def Obligations.KeyExpandCommandWritesSchedule : Prop :=
  ∀ s : State, s.mem.wf →
    InMemory s s.operands.src.toNat 16 → InMemory s s.operands.dst.toNat 128 →
    Apart s.operands.dst.toNat 128 s.operands.src.toNat 16 →
    ∃ t, exec .ksExpand s = .next t ∧ EndsMemoryOnly s t .none ∧
      Overwritten s.mem t.mem s.operands.dst.toNat
        ((keyExpand (bytesBlock (s.mem.readBytes s.operands.src.toNat 16))).toList.flatMap bytes32)

/-- SM4_SETKEY completes whenever the key is in memory: RK_C takes its schedule, C_KEYED is 1, and nothing
else changes but the status (R45, R166). -/
def Obligations.SetKeyLoadsCipherContext : Prop :=
  ∀ s : State, InMemory s s.operands.src.toNat 16 →
    exec .sm4SetKey s = .next { s with
      cipher := { rk := keyExpand (bytesBlock (s.mem.readBytes s.operands.src.toNat 16)), keyed := true }
      core := .idle
      done := true
      err := .none }

/-- SM4_ENC and SM4_DEC complete whenever both blocks are in memory, in place or apart, keyed or not and under
every backend: DST takes SM4Crypt of the block at SRC under RK_C (R182, R183, R188, R191). -/
def Obligations.SingleBlockCommandsCrypt : Prop :=
  ∀ s : State, s.mem.wf →
    InMemory s s.operands.src.toNat 16 → InMemory s s.operands.dst.toNat 16 →
    InPlaceOrApart s.operands.dst.toNat 16 s.operands.src.toNat 16 →
    (∃ t, exec .sm4Enc s = .next t ∧ EndsMemoryOnly s t .none ∧
      Overwritten s.mem t.mem s.operands.dst.toNat
        (blockBytes (sm4Crypt s.cipher.rk .enc (bytesBlock (s.mem.readBytes s.operands.src.toNat 16))))) ∧
    (∃ t, exec .sm4Dec s = .next t ∧ EndsMemoryOnly s t .none ∧
      Overwritten s.mem t.mem s.operands.dst.toNat
        (blockBytes (sm4Crypt s.cipher.rk .dec (bytesBlock (s.mem.readBytes s.operands.src.toNat 16)))))

/-- SM4_ENC_BLOCKS and SM4_DEC_BLOCKS complete for every count N < 2^28 in LEN, 0 included (a larger one is
refused, `OutOfRangeRefused`): the N blocks at DST are
SM4Crypt of the N blocks at SRC, one by one, under every backend (R104, R184, R185, R188). -/
def Obligations.BlockCommandsCryptEachBlock : Prop :=
  ∀ s : State, s.mem.wf → s.operands.len.toNat < 2 ^ 28 →
    InMemory s s.operands.src.toNat (16 * s.operands.len.toNat) →
    InMemory s s.operands.dst.toNat (16 * s.operands.len.toNat) →
    InPlaceOrApart s.operands.dst.toNat (16 * s.operands.len.toNat)
      s.operands.src.toNat (16 * s.operands.len.toNat) →
    (∃ t, exec .sm4EncBlocks s = .next t ∧ EndsMemoryOnly s t .none ∧
      Overwritten s.mem t.mem s.operands.dst.toNat
        ((List.range s.operands.len.toNat).flatMap fun b =>
          blockBytes (sm4Crypt s.cipher.rk .enc
            (bytesBlock (s.mem.readBytes (s.operands.src.toNat + 16 * b) 16))))) ∧
    (∃ t, exec .sm4DecBlocks s = .next t ∧ EndsMemoryOnly s t .none ∧
      Overwritten s.mem t.mem s.operands.dst.toNat
        ((List.range s.operands.len.toNat).flatMap fun b =>
          blockBytes (sm4Crypt s.cipher.rk .dec
            (bytesBlock (s.mem.readBytes (s.operands.src.toNat + 16 * b) 16)))))

/-- SM4_CLEAR completes in every state: RK_C is zero, C_KEYED is 0, and nothing else changes but the status
(R186). -/
def Obligations.ClearZeroesCipherContext : Prop :=
  ∀ s : State, exec .sm4Clear s = .next { s with
    cipher := { rk := Vector.replicate 32 0, keyed := false }
    core := .idle
    done := true
    err := .none }

/-- R160, R161: the round keys follow the recurrence of the key schedule, K being the initial window followed by
the round keys. The four words of the initial window are FK of R147 and `ck` is R148's table, values the spec
marks as general knowledge (PRESUMED, notes/assumptions/17.md). -/
def Obligations.KeyScheduleRecurrence : Prop :=
  ∀ (key : Block) (K : Nat → Word),
    K 0 = key.extractLsb' 96 32 ^^^ 0xA3B1BAC6 →
    K 1 = key.extractLsb' 64 32 ^^^ 0x56AA3350 →
    K 2 = key.extractLsb' 32 32 ^^^ 0x677D9197 →
    K 3 = key.extractLsb' 0 32 ^^^ 0xB27022DC →
    (∀ i, i < 32 → K (i + 4) = K i ^^^ tKey (K (i + 1) ^^^ K (i + 2) ^^^ K (i + 3) ^^^ ck.getD i 0)) →
    ∀ i, i < 32 → (keyExpand key).toList.getD i 0 = K (i + 4)

/-- R180, R181: the block function follows the round recurrence, with rk[i] for encryption and rk[31 - i] for
decryption, and its output is X35, X34, X33, X32. -/
def Obligations.RoundRecurrence : Prop :=
  ∀ (rk : Schedule) (dir : Direction) (b : Block) (X : Nat → Word),
    X 0 = b.extractLsb' 96 32 → X 1 = b.extractLsb' 64 32 →
    X 2 = b.extractLsb' 32 32 → X 3 = b.extractLsb' 0 32 →
    (∀ i, i < 32 → X (i + 4) = X i ^^^ tRound (X (i + 1) ^^^ X (i + 2) ^^^ X (i + 3) ^^^
      rk.toList.getD (match dir with | .enc => i | .dec => 31 - i) 0)) →
    sm4Crypt rk dir b = X 35 ++ X 34 ++ X 33 ++ X 32

/-- R151: the T-tables give the round transform of every word. -/
def Obligations.TableIdentity : Prop :=
  ∀ w : Word,
    tTable 0 (w.extractLsb' 24 8) ^^^ tTable 1 (w.extractLsb' 16 8) ^^^ tTable 2 (w.extractLsb' 8 8)
      ^^^ tTable 3 (w.extractLsb' 0 8) = linL (tau w) ∧
    linL (tau w) = tRound w

/-- The block commands' blocks are those of one block after the other, for every backend, capability, count
and direction: the lockstep path changes nothing (R184, R188, R189). -/
def Obligations.BatchEqualsSingleBlocks : Prop :=
  ∀ (be : Backend) (cap : Bool) (rk : Schedule) (dir : Direction) (bs : List Block),
    cryptBlocks be cap rk dir bs = bs.map (sm4Crypt rk dir)

/-- R188: no result of any command depends on BACKEND_SEL or CAP. Running a command after changing both gives
the outcome without the change, with the change made to its next state. -/
def Obligations.BackendNeverMatters : Prop :=
  ∀ (i : Instr) (s : State) (be : BitVec 2) (cap : Bool),
    exec i (s.withEngine be cap) = mapNext (State.withEngine be cap) (exec i s)

/-- R190: decryption undoes encryption for every schedule and block; and an SM4_DEC of an SM4_ENC output, in any
later state with the same schedule that holds the output at its SRC, completes and returns the original block. -/
def Obligations.BlockRoundTrip : Prop :=
  (∀ (rk : Schedule) (b : Block), sm4Crypt rk .dec (sm4Crypt rk .enc b) = b) ∧
  ∀ s t v : State, s.mem.wf → v.mem.wf → exec .sm4Enc s = .next t → v.cipher.rk = t.cipher.rk →
    v.mem.readBytes v.operands.src.toNat 16 = t.mem.readBytes s.operands.dst.toNat 16 →
    InMemory v v.operands.src.toNat 16 → InMemory v v.operands.dst.toNat 16 →
    InPlaceOrApart v.operands.dst.toNat 16 v.operands.src.toNat 16 →
    ∃ u, exec .sm4Dec v = .next u ∧ u.err = .none ∧
      u.mem.readBytes v.operands.dst.toNat 16 = s.mem.readBytes s.operands.src.toNat 16

/-! ### Galois field -/

/-- GF_MUL completes whenever its blocks are in memory and the output is in place of or apart from each input:
DST takes the product (R222). -/
def Obligations.GfMulCommandWritesProduct : Prop :=
  ∀ s : State, s.mem.wf →
    InMemory s s.operands.src.toNat 16 → InMemory s s.operands.src2.toNat 16 →
    InMemory s s.operands.dst.toNat 16 →
    InPlaceOrApart s.operands.dst.toNat 16 s.operands.src.toNat 16 →
    InPlaceOrApart s.operands.dst.toNat 16 s.operands.src2.toNat 16 →
    ∃ t, exec .gfMul s = .next t ∧ EndsMemoryOnly s t .none ∧
      Overwritten s.mem t.mem s.operands.dst.toNat
        (blockBytes (gfMul (bytesBlock (s.mem.readBytes s.operands.src.toNat 16))
          (bytesBlock (s.mem.readBytes s.operands.src2.toNat 16))))

/-- GHASH completes for every length, 0 included: DST takes the hash of the LEN bytes at SRC under the subkey at
SRC2, and the session's H is not touched (R224). -/
def Obligations.GhashCommandWritesHash : Prop :=
  ∀ s : State, s.mem.wf →
    InMemory s s.operands.src.toNat s.operands.len.toNat → InMemory s s.operands.src2.toNat 16 →
    InMemory s s.operands.dst.toNat 16 →
    InPlaceOrApart s.operands.dst.toNat 16 s.operands.src.toNat s.operands.len.toNat →
    InPlaceOrApart s.operands.dst.toNat 16 s.operands.src2.toNat 16 →
    ∃ t, exec .ghash s = .next t ∧ EndsMemoryOnly s t .none ∧
      Overwritten s.mem t.mem s.operands.dst.toNat
        (blockBytes (ghash (bytesBlock (s.mem.readBytes s.operands.src2.toNat 16))
          (s.mem.readBytes s.operands.src.toNat s.operands.len.toNat)))

/-- GFMul is commutative and associative, distributes over XOR, 80 00..00 is its identity and 0 its zero (R221);
and multiplying by 40 00..00 is one step of R220: the right shift, with 0xE1 into the top byte when a 1 is
shifted out. R221 marks the reading as polynomials as general knowledge, not in the source; R220 defines GFMul. -/
def Obligations.GfMulRingLaws : Prop :=
  (∀ x y : Block, gfMul x y = gfMul y x) ∧
  (∀ x y z : Block, gfMul (gfMul x y) z = gfMul x (gfMul y z)) ∧
  (∀ x y z : Block, gfMul (x ^^^ y) z = gfMul x z ^^^ gfMul y z) ∧
  (∀ x : Block, gfMul x 0x80000000000000000000000000000000 = x) ∧
  (∀ x : Block, gfMul x 0 = 0) ∧
  ∀ y : Block, gfMul 0x40000000000000000000000000000000 y =
    if y.getLsbD 0 = true then (y >>> 1) ^^^ 0xE1000000000000000000000000000000 else y >>> 1

/-- GHASH of one more zero byte: invisible inside the last block, one more multiplication after a full one;
the hash of nothing is zero and the hash of the byte 80 is the subkey (R224). -/
def Obligations.GhashTrailingZero : Prop :=
  (∀ (h : Block) (d : List Byte),
    ghash h (d ++ [0x00]) = if d.length % 16 = 0 then gfMul (ghash h d) h else ghash h d) ∧
  (∀ h : Block, ghash h [] = 0) ∧
  ∀ h : Block, ghash h [0x80] = h

/-! ### GCM -/

/-- GCM_SETKEY completes whenever the key is in memory: RK_G takes its schedule, H is SM4Crypt of the zero block
under it, G_KEYED is 1; the IV, the AAD and everything else but the status are unchanged (R240). -/
def Obligations.GcmSetKeyDerivesSubkey : Prop :=
  ∀ s : State, InMemory s s.operands.src.toNat 16 →
    exec .gcmSetKey s = .next { s with
      session := { s.session with
        rk := keyExpand (bytesBlock (s.mem.readBytes s.operands.src.toNat 16))
        h := sm4Crypt (keyExpand (bytesBlock (s.mem.readBytes s.operands.src.toNat 16))) .enc 0
        keyed := true }
      core := .idle
      done := true
      err := .none }

/-- GCM_SETIV completes for every IV in memory and within the capacity: IVBUF is replaced, IV_SET is 1 if
LEN > 0 or EMPTY_IV_COUNTS_AS_SET, else 0 (R241). -/
def Obligations.GcmSetIvReplacesIv : Prop :=
  ∀ s : State, s.operands.len.toNat ≤ s.params.maxIvBytes →
    InMemory s s.operands.src.toNat s.operands.len.toNat →
    exec .gcmSetIv s = .next { s with
      session := { s.session with
        iv := s.mem.readBytes s.operands.src.toNat s.operands.len.toNat
        ivSet := if s.operands.len = 0 then s.params.emptyIvCountsAsSet else true }
      core := .idle
      done := true
      err := .none }

/-- GCM_SETAAD completes for every AAD in memory and within the capacity: AADBUF is replaced (R242). -/
def Obligations.GcmSetAadReplacesAad : Prop :=
  ∀ s : State, s.operands.len.toNat ≤ s.params.maxAadBytes →
    InMemory s s.operands.src.toNat s.operands.len.toNat →
    exec .gcmSetAad s = .next { s with
      session := { s.session with aad := s.mem.readBytes s.operands.src.toNat s.operands.len.toNat }
      core := .idle
      done := true
      err := .none }

/-- GCM_ENC with an IV completes for every length and tag length: DST takes the counter-mode ciphertext of the
plaintext, TAG the first t bytes of its tag, and nothing else changes but the status, under every backend
(R243 to R247). -/
def Obligations.GcmEncWritesCiphertextAndTag : Prop :=
  ∀ (s : State) (n : BitVec 5), s.mem.wf → n.toNat ≤ 16 → s.session.ivSet = true →
    InMemory s s.operands.src.toNat s.operands.len.toNat →
    InMemory s s.operands.dst.toNat s.operands.len.toNat →
    InMemory s s.operands.tag.toNat n.toNat →
    InPlaceOrApart s.operands.dst.toNat s.operands.len.toNat s.operands.src.toNat s.operands.len.toNat →
    Apart s.operands.tag.toNat n.toNat s.operands.src.toNat s.operands.len.toNat →
    Apart s.operands.tag.toNat n.toNat s.operands.dst.toNat s.operands.len.toNat →
    ∃ t m, exec (.gcmEnc n) s = .next t ∧ EndsMemoryOnly s t .none ∧
      Overwritten s.mem m s.operands.dst.toNat
        (gctr (sm4Crypt s.session.rk .enc) (s.session.j0 s.params)
          (s.mem.readBytes s.operands.src.toNat s.operands.len.toNat)) ∧
      Overwritten m t.mem s.operands.tag.toNat
        ((blockBytes (ghash s.session.h
            (authInput s.params.authLayout s.session.aad
              (gctr (sm4Crypt s.session.rk .enc) (s.session.j0 s.params)
                (s.mem.readBytes s.operands.src.toNat s.operands.len.toNat)))
          ^^^ sm4Crypt s.session.rk .enc (s.session.j0 s.params))).take n.toNat)

/-- GCM_DEC with an IV and a tag that verifies completes: DST takes the plaintext, and nothing else changes but
the status (R245, R248). -/
def Obligations.GcmDecVerifiedWritesPlaintext : Prop :=
  ∀ (s : State) (n : BitVec 5), s.mem.wf → n.toNat ≤ 16 → s.session.ivSet = true →
    InMemory s s.operands.src.toNat s.operands.len.toNat →
    InMemory s s.operands.dst.toNat s.operands.len.toNat →
    InMemory s s.operands.tag.toNat n.toNat →
    InPlaceOrApart s.operands.dst.toNat s.operands.len.toNat s.operands.src.toNat s.operands.len.toNat →
    Apart s.operands.tag.toNat n.toNat s.operands.dst.toNat s.operands.len.toNat →
    s.mem.readBytes s.operands.tag.toNat n.toNat =
      (blockBytes (ghash s.session.h
          (authInput s.params.authLayout s.session.aad
            (s.mem.readBytes s.operands.src.toNat s.operands.len.toNat))
        ^^^ sm4Crypt s.session.rk .enc (s.session.j0 s.params))).take n.toNat →
    ∃ t, exec (.gcmDec n) s = .next t ∧ EndsMemoryOnly s t .none ∧
      Overwritten s.mem t.mem s.operands.dst.toNat
        (gctr (sm4Crypt s.session.rk .enc) (s.session.j0 s.params)
          (s.mem.readBytes s.operands.src.toNat s.operands.len.toNat))

/-- GCM_CLEAR completes in every state: RK_G, H and G_KEYED are zero; in mode EMPTY the IV and the AAD are empty
and IV_SET is 0, in mode ZERO_FILL both keep their length and hold zero bytes and IV_SET stays (R249). -/
def Obligations.GcmClearZeroesSession : Prop :=
  ∀ s : State, ∃ t, exec .gcmClear s = .next t ∧
    t = { s with session := t.session, core := .idle, done := true, err := .none } ∧
    t.session.rk = Vector.replicate 32 0 ∧ t.session.h = 0 ∧ t.session.keyed = false ∧
    (s.params.clearIvMode = .empty →
      t.session.iv = [] ∧ t.session.aad = [] ∧ t.session.ivSet = false) ∧
    (s.params.clearIvMode = .zeroFill →
      t.session.iv = List.replicate s.session.iv.length 0 ∧
      t.session.aad = List.replicate s.session.aad.length 0 ∧ t.session.ivSet = s.session.ivSet)

/-- R301: GCM_ENC and GCM_DEC with IV_SET = 0 raise InvalidState, whatever their operands: ERR takes the code,
DONE is 1, the core is IDLE, and nothing else changes. IV_SET is 0 after reset, after GCM_CLEAR in mode EMPTY, and
after a GCM_SETIV of length 0 when EMPTY_IV_COUNTS_AS_SET is false. -/
def Obligations.NoIvRaisesInvalidState : Prop :=
  (∀ (s : State) (n : BitVec 5), n.toNat ≤ 16 → s.session.ivSet = false →
    exec (.gcmEnc n) s = .next { s with err := .invalidState, done := true, core := .idle } ∧
    exec (.gcmDec n) s = .next { s with err := .invalidState, done := true, core := .idle }) ∧
  (∀ (s t : State) (c : Bool) (rest : List HostOp),
    HostMoves s (.reset c) rest → step s = .next t → t.session.ivSet = false) ∧
  (∀ s t : State, s.params.clearIvMode = .empty → exec .gcmClear s = .next t → t.session.ivSet = false) ∧
  ∀ s t : State, s.params.emptyIvCountsAsSet = false → s.operands.len = 0 → exec .gcmSetIv s = .next t →
    t.session.ivSet = false

/-- R302: GCM_DEC with a tag that differs raises AuthenticationFailure: ERR takes the code, DONE is 1, the core
is IDLE, and nothing else changes, so no plaintext byte is written. -/
def Obligations.WrongTagRaisesAuthFail : Prop :=
  ∀ (s : State) (n : BitVec 5), n.toNat ≤ 16 → s.session.ivSet = true →
    InMemory s s.operands.src.toNat s.operands.len.toNat →
    InMemory s s.operands.dst.toNat s.operands.len.toNat →
    InMemory s s.operands.tag.toNat n.toNat →
    InPlaceOrApart s.operands.dst.toNat s.operands.len.toNat s.operands.src.toNat s.operands.len.toNat →
    Apart s.operands.tag.toNat n.toNat s.operands.dst.toNat s.operands.len.toNat →
    s.mem.readBytes s.operands.tag.toNat n.toNat ≠
      (blockBytes (ghash s.session.h
          (authInput s.params.authLayout s.session.aad
            (s.mem.readBytes s.operands.src.toNat s.operands.len.toNat))
        ^^^ sm4Crypt s.session.rk .enc (s.session.j0 s.params))).take n.toNat →
    exec (.gcmDec n) s = .next { s with err := .authFail, done := true, core := .idle }

/-- R246: GCM_ENC and GCM_DEC change no session state, only data memory, DONE and ERR; and the stored IV and AAD
stay in force until a command that replaces or clears them. -/
def Obligations.SessionPersists : Prop :=
  (∀ (s t : State) (n : BitVec 5),
    exec (.gcmEnc n) s = .next t ∨ exec (.gcmDec n) s = .next t →
    t = { s with mem := t.mem, done := true, err := t.err, core := .idle }) ∧
  ∀ (i : Instr) (s t : State), exec i s = .next t →
    (t.session.iv ≠ s.session.iv ∨ t.session.ivSet ≠ s.session.ivSet → i = .gcmSetIv ∨ i = .gcmClear) ∧
    (t.session.aad ≠ s.session.aad → i = .gcmSetAad ∨ i = .gcmClear)

/-- R250: if GCM_ENC goes through, GCM_DEC of its ciphertext and tag, in any later state with the same parameters
and session that holds them at its SRC and TAG, completes with no error and writes the plaintext, for every
length, IV and tag length, wherever its ranges are legal. -/
def Obligations.AeadRoundTrip : Prop :=
  ∀ (s t v : State) (n : BitVec 5),
    s.mem.wf → v.mem.wf → s.session.ivSet = true → exec (.gcmEnc n) s = .next t →
    v.params = t.params → v.session = t.session → v.operands.len = s.operands.len →
    v.mem.readBytes v.operands.src.toNat s.operands.len.toNat
      = t.mem.readBytes s.operands.dst.toNat s.operands.len.toNat →
    v.mem.readBytes v.operands.tag.toNat n.toNat = t.mem.readBytes s.operands.tag.toNat n.toNat →
    OverlapLegal (commandRanges (.gcmDec n) v.operands) → TagClear (.gcmDec n) v →
    AllInMemory v (commandRanges (.gcmDec n) v.operands) →
    ∃ u, exec (.gcmDec n) v = .next u ∧ u.err = .none ∧
      u.mem.readBytes v.operands.dst.toNat s.operands.len.toNat
        = s.mem.readBytes s.operands.src.toNat s.operands.len.toNat

/-- R251: the tag of t bytes is the first t bytes of the 16-byte tag. -/
def Obligations.TagIsPrefixOfFullTag : Prop :=
  ∀ (g : GcmSession) (p : Params) (be : Backend) (c : List Byte) (t : Nat), t ≤ 16 →
    g.tag p be c t = (g.tag p be c 16).take t ∧ (g.tag p be c t).length = t

/-- The two layouts of the authentication input (R245): AAD, ciphertext and the two 64-bit big-endian bit
lengths, with both parts zero-padded to multiples of 16 in NIST_PADDED. They agree when both lengths are
multiples of 16. -/
def Obligations.AuthLayoutsAgreeOnFullBlocks : Prop :=
  ∀ a c : List Byte,
    authInput .docConcat a c = a ++ c ++ natBytes 8 (8 * a.length) ++ natBytes 8 (8 * c.length) ∧
    (∃ pa pc, pa < 16 ∧ pc < 16 ∧ (a.length + pa) % 16 = 0 ∧ (c.length + pc) % 16 = 0 ∧
      authInput .nistPadded a c = a ++ List.replicate pa 0 ++ c ++ List.replicate pc 0
        ++ natBytes 8 (8 * a.length) ++ natBytes 8 (8 * c.length)) ∧
    (a.length % 16 = 0 → c.length % 16 = 0 → authInput .docConcat a c = authInput .nistPadded a c) ∧
    (∀ l, (authInput l a c).drop ((authInput l a c).length - 16)
      = natBytes 8 (8 * a.length) ++ natBytes 8 (8 * c.length)) ∧
    (authInput .nistPadded a c).length % 16 = 0

/-- R336: GCM_SETKEY and GCM_SETIV in either order leave the same session, and data memory as it was. -/
def Obligations.SetKeyAndSetIvCommute : Prop :=
  ∀ (s : State) (k a n : Word), s.core = .idle →
    InMemory s k.toNat 16 → InMemory s a.toNat n.toNat → n.toNat ≤ s.params.maxIvBytes →
    ∃ t u v w,
      exec .gcmSetKey { s with regs := { s.regs with src := k } } = .next t ∧
      exec .gcmSetIv { t with regs := { t.regs with src := a, len := n } } = .next u ∧
      exec .gcmSetIv { s with regs := { s.regs with src := a, len := n } } = .next v ∧
      exec .gcmSetKey { v with regs := { v.regs with src := k } } = .next w ∧
      u.session = w.session ∧ u.mem = s.mem ∧ w.mem = s.mem

/-! ### What refuses a command -/

/-- A command whose earlier checks pass and whose ranges overlap illegally (R80), or whose tag buffer overlaps a
buffer it must stay clear of (R247, R248), is refused with Overlap. The model's reading: Overlap is reported
before OutOfRange (DEDUCED, notes/assumptions/8.md), and the tag buffer must be clear of an identical range too
(DEDUCED, notes/assumptions/19.md). -/
def Obligations.IllegalOverlapRefused : Prop :=
  ∀ (i : Instr) (s : State), ReachesRangeChecks i s → BlockCountLegal i s →
    (¬ OverlapLegal (commandRanges i s.operands) ∨ ¬ TagClear i s) →
    exec i s = .refused .overlap

/-- A command whose earlier checks pass, whose ranges overlap legally and of which one range, not empty, passes
MEM_SIZE is refused with OutOfRange; the end of a range is computed without wrap-around (R72, R73). A block
command of 2^28 blocks or more is refused so whatever its addresses (R104). The order of the checks is the
model's reading (DEDUCED, notes/assumptions/8.md and notes/assumptions/20.md). -/
def Obligations.OutOfRangeRefused : Prop :=
  ∀ (i : Instr) (s : State), ReachesRangeChecks i s →
    (¬ BlockCountLegal i s → exec i s = .refused .outOfRange) ∧
    (OverlapLegal (commandRanges i s.operands) → TagClear i s →
      (∃ r ∈ (commandRanges i s.operands).inputs ++ (commandRanges i s.operands).outputs,
        r.len ≠ 0 ∧ s.params.memSize < r.addr + r.len) →
      exec i s = .refused .outOfRange)

/-- GCM_SETIV and GCM_SETAAD above the capacity are refused, whatever their range (R241, R242, R305). -/
def Obligations.CapacityRefused : Prop :=
  ∀ s : State,
    (s.params.maxIvBytes < s.operands.len.toNat → exec .gcmSetIv s = .refused .ivCapacity) ∧
    (s.params.maxAadBytes < s.operands.len.toNat → exec .gcmSetAad s = .refused .aadCapacity)

/-! ### Every command -/

/-- R300, R304: a command that is not refused ends in one of three outcomes, with the core IDLE and DONE = 1:
no error; INVALID_STATE, from GCM_ENC or GCM_DEC with IV_SET = 0; AUTH_FAIL, from GCM_DEC with a tag that
differs over TAGLEN bytes. STATUS[3:2] is then 0, 1 or 2. The registers and the host's last answer are as before, so
nothing else is recorded. No command faults. -/
def Obligations.CommandOutcomes : Prop :=
  ∀ (i : Instr) (s : State),
    (∀ r, exec i s ≠ .fault r) ∧
    ∀ t, exec i s = .next t → t.core = .idle ∧ t.done = true ∧ t.regs = s.regs ∧ t.resp = s.resp ∧
      (t.err = .none ∧ t.idleStatus.extractLsb' 2 2 = 0 ∨
       (t.err = .invalidState ∧ t.idleStatus.extractLsb' 2 2 = 1 ∧ s.session.ivSet = false ∧
         ∃ n, i = .gcmEnc n ∨ i = .gcmDec n) ∨
       (t.err = .authFail ∧ t.idleStatus.extractLsb' 2 2 = 2 ∧ s.session.ivSet = true ∧ ∃ n, i = .gcmDec n ∧
         s.session.tag s.params s.backend
             (s.mem.readBytes s.operands.src.toNat s.operands.len.toNat) n.toNat
           ≠ s.mem.readBytes s.operands.tag.toNat n.toNat))

/-- No command changes the operand registers, CAP, the parameters, what the core owns or anything on the host's
side (R38, R44, R103). That a completed command's ranges stay owned until STATUS is read is the model's reading
of R82 (DEDUCED, notes/assumptions/10.md). -/
def Obligations.CommandsLeaveRegisters : Prop :=
  ∀ (i : Instr) (s t : State), exec i s = .next t →
    t = { s with
      cipher := t.cipher, session := t.session, mem := t.mem, core := t.core, done := t.done, err := t.err }

/-- RK_C is written only by SM4_SETKEY and SM4_CLEAR, the session only by the GCM commands that set or clear it
(R42, R43). -/
def Obligations.ContextsHaveTheirOwnWriters : Prop :=
  ∀ (i : Instr) (s t : State), exec i s = .next t →
    (t.cipher ≠ s.cipher → i = .sm4SetKey ∨ i = .sm4Clear) ∧
    (t.session ≠ s.session → i = .gcmSetKey ∨ i = .gcmSetIv ∨ i = .gcmSetAad ∨ i = .gcmClear)

/-- A command writes data memory only inside its output ranges, and keeps memory in canonical form; a command
that raises an error writes none (R80, R103, R307). -/
def Obligations.MemoryChangesOnlyInOutputRanges : Prop :=
  ∀ (i : Instr) (s t : State), exec i s = .next t →
    (∀ x, (∀ r ∈ (commandRanges i s.operands).outputs, ¬ (r.addr ≤ x ∧ x < r.addr + r.len)) →
      t.mem.readByte x = s.mem.readByte x) ∧
    (s.mem.wf → t.mem.wf) ∧
    (t.err ≠ .none → t.mem = s.mem)

/-! ### Runs -/

/-- The invariant holds after reset, for all parameters in their bounds and either level of `cap_in`.
State.reset takes chosen parameters and a chosen level of `cap_in` (DESIGN CHOICE, notes/assumptions/6.md and
notes/assumptions/7.md); the second clause holds for all. -/
def Obligations.ResetSatisfiesTheInvariant : Prop :=
  State.reset.Inv ∧ ∀ (p : Params) (c : Bool), p.wf = true → (State.resetWith p c).Inv

/-- Every step keeps the invariant. -/
def Obligations.StepKeepsTheInvariant : Prop :=
  ∀ s t : State, s.Inv → step s = .next t → t.Inv

/-- R346: a command in flight completes. With the host polling or idle, the core is IDLE with DONE = 1 after as
many steps as the command has host turns, and one more. How many host turns a command takes is the model's own
plain data (DESIGN CHOICE, notes/assumptions/1.md). -/
def Obligations.EveryCommandCompletes : Prop :=
  ∀ (s : State) (f : InFlight), s.Inv → s.core = .busy f →
    (s.host = [] ∨ ∃ rest, s.host = .wait :: rest) →
    ∃ t, Sys2Proof.core.run (f.turns + 1) s = .next t ∧ t.core = .idle ∧ t.done = true

/-- Core state changes only by a command's completion or by reset: a host turn that is no reset leaves both
contexts, CAP and the parameters as they are (R44, R316). -/
def Obligations.OnlyCommandsAndResetChangeContexts : Prop :=
  ∀ s t : State, step s = .next t →
    t.params = s.params ∧
    (t.cap ≠ s.cap → ∃ c rest, HostMoves s (.reset c) rest ∧ t.cap = c) ∧
    (t.cipher ≠ s.cipher ∨ t.session ≠ s.session →
      (∃ f, s.core = .busy f ∧ f.turns = 0) ∨ ∃ c rest, HostMoves s (.reset c) rest)

/-- No host access tells the host anything of the key material, the IV or the AAD: from two states that differ
only there, the same access gets the same answer, and leaves states that differ only there (R42, R43, R311). For
a STATUS read while BUSY this rests on the model's choice that the free bits 6:4 depend on the read's number
alone, which R51 does not say (DESIGN CHOICE, unsafe for this statement, notes/assumptions/3.md). -/
def Obligations.HostAccessRevealsNoSecret : Prop :=
  ∀ (s t u : State) (op : HostOp) (rest : List HostOp),
    SameButSecrets s t → HostMoves s op rest → step s = .next u →
    ∃ v, step t = .next v ∧ v.resp = u.resp ∧ SameButSecrets u v

/-! ### The register window -/

/-- A STATUS read while IDLE returns BUSY = 0 and the flags in their places, bits 31:8 zero, ERR being 0, 1 or 2;
it gives the owned ranges back to the host and changes nothing else (R34, R82, R300). -/
def Obligations.StatusReadWhileIdle : Prop :=
  ∀ (s : State) (rest : List HostOp), s.core = .idle →
    HostMoves s (.read (s.params.regBase + 0x04) 4) rest →
    ∃ v : Word,
      step s = .next { s with
        host := rest, resp := some (.word v), ownedIn := [], ownedOut := [] } ∧
      v.getLsbD 0 = false ∧ v.getLsbD 1 = s.done ∧
      v.extractLsb' 2 2 = (match s.err with | .none => 0 | .invalidState => 1 | .authFail => 2) ∧
      v.getLsbD 4 = s.cipher.keyed ∧ v.getLsbD 5 = s.session.keyed ∧ v.getLsbD 6 = s.session.ivSet ∧
      v.getLsbD 7 = s.cap ∧ v.extractLsb' 8 24 = 0

/-- R51: a STATUS read while BUSY returns BUSY = 1, DONE = 0, ERR = 0 and CAP; bits 6:4 are a value drawn anew
for each read. The other registers read as the last value written. That bits 6:4 are `Config.freeStatusBits` of
the model's own read counter is the model's form of R51's free value (DESIGN CHOICE, notes/assumptions/3.md). -/
def Obligations.ReadsWhileBusy : Prop :=
  ∀ (s : State) (f : InFlight) (rest : List HostOp), s.core = .busy f →
    (HostMoves s (.read (s.params.regBase + 0x04) 4) rest →
      ∃ v : Word,
        step s = .next { afterTurn s rest with
          resp := some (.word v), freeCount := s.freeCount + 1 } ∧
        v.getLsbD 0 = true ∧ v.getLsbD 1 = false ∧ v.extractLsb' 2 2 = 0 ∧
        v.extractLsb' 4 3 = Config.freeStatusBits s.freeCount ∧
        v.getLsbD 7 = s.cap ∧ v.extractLsb' 8 24 = 0) ∧
    ∀ off val, (off, val) ∈ [(0x08, s.regs.src), (0x0C, s.regs.src2), (0x10, s.regs.dst),
        (0x14, s.regs.len), (0x18, s.regs.tag), (0x1C, s.regs.backend.setWidth 32)] →
      HostMoves s (.read (s.params.regBase + off) 4) rest →
      step s = .next { afterTurn s rest with resp := some (.word val) }

/-- Register writes while IDLE take effect and read back: SRC, SRC2, DST, LEN and TAG keep all 32 bits,
BACKEND_SEL keeps bits 1:0; a write to STATUS or a reserved offset is ignored (R34 to R41). -/
def Obligations.RegisterWritesWhileIdle : Prop :=
  ∀ (s : State) (off : Nat) (v : Word) (rest : List HostOp), s.core = .idle →
    HostMoves s (.write (s.params.regBase + off) 4 v) rest →
    (off = 0x08 → step s = .next { s with host := rest, regs := { s.regs with src := v } }) ∧
    (off = 0x0C → step s = .next { s with host := rest, regs := { s.regs with src2 := v } }) ∧
    (off = 0x10 → step s = .next { s with host := rest, regs := { s.regs with dst := v } }) ∧
    (off = 0x14 → step s = .next { s with host := rest, regs := { s.regs with len := v } }) ∧
    (off = 0x18 → step s = .next { s with host := rest, regs := { s.regs with tag := v } }) ∧
    (off = 0x1C →
      step s = .next { s with host := rest, regs := { s.regs with backend := v.extractLsb' 0 2 } }) ∧
    (off = 0x04 ∨ (0x20 ≤ off ∧ off < 256 ∧ off % 4 = 0) → step s = .next { s with host := rest })

/-- Register reads: SRC, SRC2, DST, LEN and TAG return what they hold, BACKEND_SEL returns bits 1:0 and zeros,
CMD and the reserved offsets return 0; the read changes nothing else (R33, R35 to R41). -/
def Obligations.RegisterReads : Prop :=
  ∀ (s : State) (off : Nat) (rest : List HostOp),
    off < 256 → off % 4 = 0 → off ≠ 0x04 → HostMoves s (.read (s.params.regBase + off) 4) rest →
    ∃ v : Word, step s = .next { afterTurn s rest with resp := some (.word v) } ∧
      (off = 0x08 → v = s.regs.src) ∧ (off = 0x0C → v = s.regs.src2) ∧ (off = 0x10 → v = s.regs.dst) ∧
      (off = 0x14 → v = s.regs.len) ∧ (off = 0x18 → v = s.regs.tag) ∧
      (off = 0x1C → v.extractLsb' 0 2 = s.regs.backend ∧ v.extractLsb' 2 30 = 0) ∧
      (off = 0x00 ∨ 0x20 ≤ off → v = 0)

/-- R340: while BUSY a write to CMD or an operand register is refused with HostHazard, a write to STATUS or a
reserved offset is ignored, and every register read goes on. -/
def Obligations.RegisterWriteWhileBusy : Prop :=
  ∀ (s : State) (f : InFlight) (off : Nat) (v : Word) (rest : List HostOp), s.core = .busy f →
    (HostMoves s (.write (s.params.regBase + off) 4 v) rest →
      (off ∈ [0x00, 0x08, 0x0C, 0x10, 0x14, 0x18, 0x1C] → step s = .refused .hostHazard) ∧
      (off = 0x04 ∨ (0x20 ≤ off ∧ off < 256 ∧ off % 4 = 0) → step s = .next (afterTurn s rest))) ∧
    (HostMoves s (.read (s.params.regBase + off) 4) rest → off < 256 → off % 4 = 0 → ∃ t, step s = .next t)

/-- R79: an access with a byte in the register window that is not a 32-bit access at a multiple of 4 of its
offsets is refused, read or write. That an access with a single byte in the window counts, so one that straddles
its edge too, is the model's reading (DEDUCED, notes/assumptions/12.md), and so is that a write is refused so
while BUSY as well, before R340 is looked at (DESIGN CHOICE, notes/assumptions/23.md). -/
def Obligations.NonWordRegisterAccessRefused : Prop :=
  ∀ (s : State) (a w : Nat) (v : Word) (rest : List HostOp),
    (∃ x, a ≤ x ∧ x < a + w ∧ s.params.regBase ≤ x ∧ x < s.params.regBase + 256) →
    ¬ (w = 4 ∧ s.params.regBase ≤ a ∧ (a - s.params.regBase) % 4 = 0) →
    HostMoves s (.write a w v) rest ∨ HostMoves s (.read a w) rest →
    step s = .refused .badRegisterAccess

/-! ### Data memory and the host -/

/-- A host write that meets an owned range, or a host read that meets an owned output range, is refused with
HostHazard; any other host access inside data memory goes on, a write storing its bytes and a read answering
them, and nothing else changes (R82, R341). How long a range is owned is the model's reading (DEDUCED,
notes/assumptions/10.md). -/
def Obligations.OwnedRangesAreProtected : Prop :=
  ∀ (s : State) (a n : Nat) (bs : List Byte) (rest : List HostOp),
    (HostMoves s (.memWrite a bs) rest → InMemory s a bs.length →
      ((∃ r ∈ s.ownedIn ++ s.ownedOut, ¬ Apart a bs.length r.addr r.len) →
        step s = .refused .hostHazard) ∧
      ((∀ r ∈ s.ownedIn ++ s.ownedOut, Apart a bs.length r.addr r.len) → s.mem.wf →
        ∃ t, step s = .next t ∧ t = { afterTurn s rest with mem := t.mem } ∧
          Overwritten s.mem t.mem a bs)) ∧
    (HostMoves s (.memRead a n) rest → InMemory s a n →
      ((∃ r ∈ s.ownedOut, ¬ Apart a n r.addr r.len) → step s = .refused .hostHazard) ∧
      ((∀ r ∈ s.ownedOut, Apart a n r.addr r.len) →
        ∃ bytes, step s = .next { afterTurn s rest with resp := some (.bytes bytes) } ∧
          bytes.length = n ∧ ∀ k, k < n → bytes.getD k 0 = s.mem.readByte (a + k)))

/-! ### Reset -/

/-- R330: reset from any state gives every core state element its reset value, samples `cap_in`, and leaves data
memory as it is when no command was in flight; STATUS then reads CAP in bit 7 and zeros. -/
def Obligations.ResetGivesResetValues : Prop :=
  ∀ (s : State) (c : Bool) (rest : List HostOp), HostMoves s (.reset c) rest →
    ∃ t, step s = .next t ∧
      t.cap = c ∧ t.core = .idle ∧ t.done = false ∧ t.err = .none ∧
      t.regs = { src := 0, src2 := 0, dst := 0, len := 0, tag := 0, backend := 0 } ∧
      t.cipher = { rk := Vector.replicate 32 0, keyed := false } ∧
      t.session = {
        rk := Vector.replicate 32 0, h := 0, iv := [], ivSet := false, aad := [], keyed := false } ∧
      t.idleStatus = (if c then 0x00000080 else 0x00000000) ∧
      (s.core = .idle → t.mem = s.mem)

/-- R333: reset while BUSY abandons the command. Every core state element takes its reset value, each
data-memory byte of the command's output ranges holds a free value, every other byte is as it was, and STATUS
reports no command. The model's choices: the free byte by its own counter and only below MEM_SIZE (DESIGN
CHOICE, notes/assumptions/4.md), and that `host`, `busyFor` and `resp` survive (DESIGN CHOICE,
notes/assumptions/2.md). -/
def Obligations.ResetDuringCommand : Prop :=
  ∀ (s : State) (f : InFlight) (i : Instr) (c : Bool) (rest : List HostOp),
    s.core = .busy f → decode f.word = .ok i → s.mem.wf → HostMoves s (.reset c) rest →
    ∃ t, step s = .next t ∧
      t = { State.resetWith s.params c with
        mem := t.mem, freeCount := t.freeCount, host := rest, busyFor := s.busyFor, resp := s.resp } ∧
      t.idleStatus = (if c then 0x00000080 else 0x00000000) ∧
      (∀ x, (∀ r ∈ (commandRanges i f.latch).outputs, ¬ (r.addr ≤ x ∧ x < r.addr + r.len)) →
        t.mem.readByte x = s.mem.readByte x) ∧
      ∀ r ∈ (commandRanges i f.latch).outputs, ∀ x, r.addr ≤ x → x < r.addr + r.len →
        x < s.params.memSize →
        ∃ k, s.freeCount ≤ k ∧ k < t.freeCount ∧ t.mem.readByte x = Config.freeByte k

/-- R332: SM4_CLEAR and then GCM_CLEAR in mode EMPTY leave what reset leaves (with `cap_in` at the level CAP has),
but for the operand registers, BACKEND_SEL, DONE and ERR. The ownership of ranges is the model's own record
(notes/assumptions/10.md) and given back by reset. -/
def Obligations.ResetAndClearAgree : Prop :=
  ∀ (s : State) (rest : List HostOp), s.core = .idle → s.params.clearIvMode = .empty →
    HostMoves s (.reset s.cap) rest →
    ∃ r t u, step s = .next r ∧ exec .sm4Clear s = .next t ∧ exec .gcmClear t = .next u ∧
      r = { u with
        host := rest
        regs := { src := 0, src2 := 0, dst := 0, len := 0, tag := 0, backend := 0 }
        done := false
        err := .none
        ownedIn := []
        ownedOut := [] }

/-! ### The functions the command statements are made of -/

/-- GHASH's recurrence: the hash of no data is zero, and one more block of 1 to 16 bytes after full blocks is
zero-padded on the right, added to the hash so far and multiplied by the subkey (R223). -/
def Obligations.GhashRecurrence : Prop :=
  (∀ h : Block, ghash h [] = 0) ∧
  ∀ (h : Block) (d b : List Byte), d.length % 16 = 0 → 0 < b.length → b.length ≤ 16 →
    ghash h (d ++ b) = gfMul (ghash h d ^^^ bytesBlock (b ++ List.replicate (16 - b.length) 0)) h

/-- J0 (R243): a 12-byte IV and then 00 00 00 01; for every other length the hash of the IV under H, in mode
NIST_LENGTH_BLOCK of the IV zero-padded to a multiple of 16 bytes, eight zero bytes and its 64-bit big-endian
bit length. -/
def Obligations.InitialCounterBlock : Prop :=
  ∀ (g : GcmSession) (p : Params),
    (g.iv.length = 12 → blockBytes (g.j0 p) = g.iv ++ [0x00, 0x00, 0x00, 0x01]) ∧
    (g.iv.length ≠ 12 → p.ivExpansion = .docPlain → g.j0 p = ghash g.h g.iv) ∧
    (g.iv.length ≠ 12 → p.ivExpansion = .nistLengthBlock →
      ∃ n, n < 16 ∧ (g.iv.length + n) % 16 = 0 ∧
        g.j0 p = ghash g.h (g.iv ++ List.replicate (n + 8) 0 ++ natBytes 8 (8 * g.iv.length)))

/-- inc32 adds 1 modulo 2^32 to the last four bytes and keeps the first twelve (R244); byte k of counter mode is
byte k of the data XOR byte k mod 16 of the block cipher of counter block k / 16 + 1, the first of which is
inc32(J0), and counter mode gives as many bytes as it takes (R245). -/
def Obligations.CounterModeBytes : Prop :=
  (∀ cb : Block, (inc32 cb).extractLsb' 32 96 = cb.extractLsb' 32 96 ∧
    ((inc32 cb).extractLsb' 0 32).toNat = ((cb.extractLsb' 0 32).toNat + 1) % 2 ^ 32) ∧
  ∀ (e : Block → Block) (j0 : Block) (d : List Byte),
    (gctr e j0 d).length = d.length ∧
    ∀ k, k < d.length →
      (gctr e j0 d).getD k 0 =
        d.getD k 0 ^^^ (blockBytes (e (inc32^[k / 16 + 1] j0))).getD (k % 16) 0

/-- Every conversion is big-endian (R14, R17): byte k of an n-byte number, of a word and of a block is the k-th
from the most significant end, and a block is read back from its sixteen bytes. -/
def Obligations.BytesAreBigEndian : Prop :=
  (∀ n v k, k < n → (natBytes n v).length = n ∧
    (natBytes n v).getD k 0 = BitVec.ofNat 8 (v / 256 ^ (n - 1 - k))) ∧
  (∀ w : Word,
    bytes32 w = [w.extractLsb' 24 8, w.extractLsb' 16 8, w.extractLsb' 8 8, w.extractLsb' 0 8]) ∧
  (∀ b : Block, (blockBytes b).length = 16 ∧
    ∀ k, k < 16 → (blockBytes b).getD k 0 = b.extractLsb' (8 * (15 - k)) 8) ∧
  ∀ b : Block, bytesBlock (blockBytes b) = b
end

