-- ==== Sys2Proof/Laws/Bytes.lean ====
section
/-! SUPPORT. The laws of the byte conversions, and the lengths of what the functions produce. -/

namespace Sys2Proof.Machine

open Sys2Proof

@[simp] theorem natBytes_length (n v : Nat) : (natBytes n v).length = n := by
  induction n with
  | zero => rfl
  | succ n ih => simp [natBytes, ih]

@[simp] theorem bytes32_length (w : Word) : (bytes32 w).length = 4 := natBytes_length 4 _
@[simp] theorem be64bytes_length (v : Nat) : (be64bytes v).length = 8 := natBytes_length 8 _
@[simp] theorem blockBytes_length (b : Block) : (blockBytes b).length = 16 := natBytes_length 16 _
@[simp] theorem zeroBytes_length (n : Nat) : (zeroBytes n).length = n := by simp [zeroBytes]
@[simp] theorem xorBytes_length (a b : List Byte) : (xorBytes a b).length = min a.length b.length := by
  simp [xorBytes]

theorem bytesNat_foldl (bs : List Byte) (acc : Nat) :
    bs.foldl (fun acc b => acc * 256 + b.toNat) acc = acc * 256 ^ bs.length + bytesNat bs := by
  induction bs generalizing acc with
  | nil => simp [bytesNat]
  | cons b bs ih =>
    rw [List.foldl_cons, ih]
    have h : bytesNat (b :: bs) = b.toNat * 256 ^ bs.length + bytesNat bs := by
      rw [bytesNat, List.foldl_cons, ih]; ring
    rw [h, List.length_cons]
    ring

theorem bytesNat_cons (b : Byte) (bs : List Byte) :
    bytesNat (b :: bs) = b.toNat * 256 ^ bs.length + bytesNat bs := by
  simpa [bytesNat] using bytesNat_foldl bs b.toNat

theorem bytesNat_lt (bs : List Byte) : bytesNat bs < 256 ^ bs.length := by
  induction bs with
  | nil => simp [bytesNat]
  | cons b bs ih =>
    rw [bytesNat_cons, List.length_cons, pow_succ]
    have := b.isLt
    nlinarith [Nat.zero_le (256 ^ bs.length)]

/-- Encoding what a byte string encodes gives the string back. -/
theorem natBytes_bytesNat (bs : List Byte) (k : Nat) :
    natBytes bs.length (k * 256 ^ bs.length + bytesNat bs) = bs := by
  induction bs generalizing k with
  | nil => rfl
  | cons b bs ih =>
    have hlt := bytesNat_lt bs
    have hpos : 0 < 256 ^ bs.length := by positivity
    rw [List.length_cons, natBytes, bytesNat_cons, pow_succ]
    have he : k * (256 ^ bs.length * 256) + (b.toNat * 256 ^ bs.length + bytesNat bs)
        = (k * 256 + b.toNat) * 256 ^ bs.length + bytesNat bs := by ring
    rw [he, ih, Nat.mul_comm _ (256 ^ bs.length), Nat.mul_add_div hpos, Nat.div_eq_of_lt hlt]
    congr 1
    apply BitVec.eq_of_toNat_eq
    have := b.isLt
    simp only [BitVec.toNat_ofNat]
    omega

/-- What the encoding of a number encodes is the number, modulo 2^(8n). -/
theorem bytesNat_natBytes (n v : Nat) : bytesNat (natBytes n v) = v % 256 ^ n := by
  induction n with
  | zero => simp [natBytes, bytesNat, Nat.mod_one]
  | succ n ih =>
    rw [natBytes, bytesNat_cons, ih, natBytes_length, pow_succ, Nat.mod_mul]
    simp only [BitVec.toNat_ofNat]
    ring

@[simp] theorem bytesBlock_blockBytes (b : Block) : bytesBlock (blockBytes b) = b := by
  have h : b.toNat < 256 ^ 16 := b.isLt
  rw [bytesBlock, blockBytes, bytesNat_natBytes, Nat.mod_eq_of_lt h]
  simp

theorem blockBytes_bytesBlock (bs : List Byte) (h : bs.length = 16) :
    blockBytes (bytesBlock bs) = bs := by
  have hlt : bytesNat bs < 2 ^ 128 := by
    have := bytesNat_lt bs
    rw [h] at this
    exact this
  rw [blockBytes, bytesBlock, BitVec.toNat_ofNat, Nat.mod_eq_of_lt hlt]
  have := natBytes_bytesNat bs 0
  rw [h] at this
  simpa using this

@[simp] theorem toBlocks_length (n : Nat) (bs : List Byte) : (toBlocks n bs).length = n := by
  induction n generalizing bs with
  | zero => rfl
  | succ n ih => simp [toBlocks, ih]

@[simp] theorem blocksBytes_length (bs : List Block) : (blocksBytes bs).length = 16 * bs.length := by
  induction bs with
  | nil => rfl
  | cons b bs ih =>
    simp only [blocksBytes, List.flatMap_cons, List.length_append, blockBytes_length,
      List.length_cons] at *
    omega

@[simp] theorem scheduleBytes_length (rk : Schedule) : (scheduleBytes rk).length = 128 := by
  simp [scheduleBytes, List.length_flatMap, bytes32_length]

/-- Counter mode gives as many bytes as it is given, as long as there are blocks for them. -/
theorem gctrLoop_length (e : Block → Block) (n : Nat) (cb : Block) (d : List Byte)
    (h : d.length ≤ 16 * n) : (gctrLoop e n cb d).length = d.length := by
  induction n generalizing cb d with
  | zero =>
    have : d = [] := List.length_eq_zero_iff.1 (by omega)
    simp [gctrLoop, this]
  | succ n ih =>
    rw [gctrLoop, List.length_append, ih _ _ (by simp; omega)]
    simp
    omega

@[simp] theorem gctr_length (e : Block → Block) (j0 : Block) (d : List Byte) :
    (gctr e j0 d).length = d.length :=
  gctrLoop_length e _ j0 d (by unfold blockCount; omega)

@[simp] theorem ctr_length (g : GcmSession) (p : Params) (be : Backend) (d : List Byte) :
    (g.ctr p be d).length = d.length := gctr_length _ _ _

theorem tag_length (g : GcmSession) (p : Params) (be : Backend) (c : List Byte) (t : Nat) (h : t ≤ 16) :
    (g.tag p be c t).length = t := by
  simp [GcmSession.tag, h]

/-- XOR with the same keystream twice gives the bytes back. -/
theorem xorBytes_cancel (a k : List Byte) (h : a.length ≤ k.length) :
    xorBytes (xorBytes a k) k = a := by
  induction a generalizing k with
  | nil => cases k <;> rfl
  | cons x a ih =>
    cases k with
    | nil => simp at h
    | cons y k =>
      have := ih k (by simpa using h)
      simp only [xorBytes, List.zipWith_cons_cons] at *
      rw [this, BitVec.xor_assoc, BitVec.xor_self, BitVec.xor_zero]

@[simp] theorem blockOfQuad_quadOfBlock (b : Block) : blockOfQuad (quadOfBlock b) = b := by
  apply BitVec.eq_of_getLsbD_eq
  intro i hi
  simp only [blockOfQuad, quadOfBlock, BitVec.getLsbD_append, BitVec.getLsbD_extractLsb',
    Nat.zero_add]
  split_ifs with h1 h2 h3
  · simp [h1]
  · rw [decide_eq_true (by omega), Bool.true_and]; congr 1; omega
  · rw [decide_eq_true (by omega), Bool.true_and]; congr 1; omega
  · rw [decide_eq_true (by omega), Bool.true_and]; congr 1; omega

end Sys2Proof.Machine
end

