-- ==== Sys2Proof/Laws/State.lean ====
section
/-! SUPPORT. One lemma per field and shared update of State, so that no proof unfolds an update. -/

namespace Sys2Proof.Machine

open Sys2Proof

variable (s : State)

section Store
variable (a : Nat) (bs : List Byte)

@[simp] theorem store_params : (s.store a bs).params = s.params := rfl
@[simp] theorem store_core : (s.store a bs).core = s.core := rfl
@[simp] theorem store_done : (s.store a bs).done = s.done := rfl
@[simp] theorem store_err : (s.store a bs).err = s.err := rfl
@[simp] theorem store_cap : (s.store a bs).cap = s.cap := rfl
@[simp] theorem store_regs : (s.store a bs).regs = s.regs := rfl
@[simp] theorem store_cipher : (s.store a bs).cipher = s.cipher := rfl
@[simp] theorem store_session : (s.store a bs).session = s.session := rfl
@[simp] theorem store_mem : (s.store a bs).mem = s.mem.writeBytes a bs := rfl
@[simp] theorem store_ownedIn : (s.store a bs).ownedIn = s.ownedIn := rfl
@[simp] theorem store_ownedOut : (s.store a bs).ownedOut = s.ownedOut := rfl
@[simp] theorem store_host : (s.store a bs).host = s.host := rfl
@[simp] theorem store_busyFor : (s.store a bs).busyFor = s.busyFor := rfl
@[simp] theorem store_resp : (s.store a bs).resp = s.resp := rfl
@[simp] theorem store_freeCount : (s.store a bs).freeCount = s.freeCount := rfl
@[simp] theorem store_operands : (s.store a bs).operands = s.operands := rfl
@[simp] theorem store_busy : (s.store a bs).busy = s.busy := rfl

end Store

section Finish
variable (e : ErrCode)

@[simp] theorem finish_params : (s.finish e).params = s.params := rfl
@[simp] theorem finish_core : (s.finish e).core = .idle := rfl
@[simp] theorem finish_done : (s.finish e).done = true := rfl
@[simp] theorem finish_err : (s.finish e).err = e := rfl
@[simp] theorem finish_cap : (s.finish e).cap = s.cap := rfl
@[simp] theorem finish_regs : (s.finish e).regs = s.regs := rfl
@[simp] theorem finish_cipher : (s.finish e).cipher = s.cipher := rfl
@[simp] theorem finish_session : (s.finish e).session = s.session := rfl
@[simp] theorem finish_mem : (s.finish e).mem = s.mem := rfl
@[simp] theorem finish_ownedIn : (s.finish e).ownedIn = s.ownedIn := rfl
@[simp] theorem finish_ownedOut : (s.finish e).ownedOut = s.ownedOut := rfl
@[simp] theorem finish_host : (s.finish e).host = s.host := rfl
@[simp] theorem finish_busyFor : (s.finish e).busyFor = s.busyFor := rfl
@[simp] theorem finish_resp : (s.finish e).resp = s.resp := rfl
@[simp] theorem finish_freeCount : (s.finish e).freeCount = s.freeCount := rfl
@[simp] theorem finish_busy : (s.finish e).busy = false := rfl

end Finish

section LatchCommand
variable (w : Word) (n : Nat)

@[simp] theorem latchCommand_params : (s.latchCommand w n).params = s.params := rfl
@[simp] theorem latchCommand_core : (s.latchCommand w n).core = .busy ⟨w, s.regs, n⟩ := rfl
@[simp] theorem latchCommand_done : (s.latchCommand w n).done = false := rfl
@[simp] theorem latchCommand_err : (s.latchCommand w n).err = .none := rfl
@[simp] theorem latchCommand_cap : (s.latchCommand w n).cap = s.cap := rfl
@[simp] theorem latchCommand_regs : (s.latchCommand w n).regs = s.regs := rfl
@[simp] theorem latchCommand_cipher : (s.latchCommand w n).cipher = s.cipher := rfl
@[simp] theorem latchCommand_session : (s.latchCommand w n).session = s.session := rfl
@[simp] theorem latchCommand_mem : (s.latchCommand w n).mem = s.mem := rfl
@[simp] theorem latchCommand_ownedIn : (s.latchCommand w n).ownedIn = s.ownedIn := rfl
@[simp] theorem latchCommand_ownedOut : (s.latchCommand w n).ownedOut = s.ownedOut := rfl
@[simp] theorem latchCommand_host : (s.latchCommand w n).host = s.host := rfl
@[simp] theorem latchCommand_busyFor : (s.latchCommand w n).busyFor = s.busyFor := rfl
@[simp] theorem latchCommand_resp : (s.latchCommand w n).resp = s.resp := rfl
@[simp] theorem latchCommand_freeCount : (s.latchCommand w n).freeCount = s.freeCount := rfl
@[simp] theorem latchCommand_operands : (s.latchCommand w n).operands = s.regs := rfl
@[simp] theorem latchCommand_busy : (s.latchCommand w n).busy = true := rfl

end LatchCommand

section Own
variable (io : RangeSet)

@[simp] theorem own_params : (s.own io).params = s.params := rfl
@[simp] theorem own_core : (s.own io).core = s.core := rfl
@[simp] theorem own_done : (s.own io).done = s.done := rfl
@[simp] theorem own_err : (s.own io).err = s.err := rfl
@[simp] theorem own_cap : (s.own io).cap = s.cap := rfl
@[simp] theorem own_regs : (s.own io).regs = s.regs := rfl
@[simp] theorem own_cipher : (s.own io).cipher = s.cipher := rfl
@[simp] theorem own_session : (s.own io).session = s.session := rfl
@[simp] theorem own_mem : (s.own io).mem = s.mem := rfl
@[simp] theorem own_ownedIn : (s.own io).ownedIn = s.ownedIn ++ io.inputs := rfl
@[simp] theorem own_ownedOut : (s.own io).ownedOut = s.ownedOut ++ io.outputs := rfl
@[simp] theorem own_host : (s.own io).host = s.host := rfl
@[simp] theorem own_busyFor : (s.own io).busyFor = s.busyFor := rfl
@[simp] theorem own_resp : (s.own io).resp = s.resp := rfl
@[simp] theorem own_freeCount : (s.own io).freeCount = s.freeCount := rfl
@[simp] theorem own_operands : (s.own io).operands = s.operands := rfl
@[simp] theorem own_busy : (s.own io).busy = s.busy := rfl

end Own

section AcceptCommand
variable (w : Word) (i : Instr)

@[simp] theorem acceptCommand_params : (s.acceptCommand w i).params = s.params := rfl
@[simp] theorem acceptCommand_core : (s.acceptCommand w i).core = .busy ⟨w, s.regs, s.busyFor.headD 0⟩ := rfl
@[simp] theorem acceptCommand_done : (s.acceptCommand w i).done = false := rfl
@[simp] theorem acceptCommand_err : (s.acceptCommand w i).err = .none := rfl
@[simp] theorem acceptCommand_cap : (s.acceptCommand w i).cap = s.cap := rfl
@[simp] theorem acceptCommand_regs : (s.acceptCommand w i).regs = s.regs := rfl
@[simp] theorem acceptCommand_cipher : (s.acceptCommand w i).cipher = s.cipher := rfl
@[simp] theorem acceptCommand_session : (s.acceptCommand w i).session = s.session := rfl
@[simp] theorem acceptCommand_mem : (s.acceptCommand w i).mem = s.mem := rfl
@[simp] theorem acceptCommand_ownedIn : (s.acceptCommand w i).ownedIn = s.ownedIn ++ (commandRanges i s.operands).inputs := rfl
@[simp] theorem acceptCommand_ownedOut : (s.acceptCommand w i).ownedOut = s.ownedOut ++ (commandRanges i s.operands).outputs := rfl
@[simp] theorem acceptCommand_host : (s.acceptCommand w i).host = s.host := rfl
@[simp] theorem acceptCommand_busyFor : (s.acceptCommand w i).busyFor = s.busyFor.tail := rfl
@[simp] theorem acceptCommand_resp : (s.acceptCommand w i).resp = s.resp := rfl
@[simp] theorem acceptCommand_freeCount : (s.acceptCommand w i).freeCount = s.freeCount := rfl
@[simp] theorem acceptCommand_operands : (s.acceptCommand w i).operands = s.regs := rfl
@[simp] theorem acceptCommand_busy : (s.acceptCommand w i).busy = true := rfl

end AcceptCommand

/-- While IDLE the operands are the registers. -/
theorem operands_of_idle (h : s.core = .idle) : s.operands = s.regs := by
  simp [State.operands, h]

/-- While BUSY the operands are the latched ones (R52). -/
theorem operands_of_busy (f : InFlight) (h : s.core = .busy f) : s.operands = f.latch := by
  simp [State.operands, h]

/-- BUSY is a view of CORE_STATE (R31). -/
theorem busy_eq_false : s.busy = false ↔ s.core = .idle := by
  cases h : s.core <;> simp [State.busy, h]

/-- `withEngine` changes what it names and nothing else. -/
@[simp] theorem withEngine_params (be : BitVec 2) (c : Bool) : (s.withEngine be c).params = s.params := rfl
@[simp] theorem withEngine_mem (be : BitVec 2) (c : Bool) : (s.withEngine be c).mem = s.mem := rfl
@[simp] theorem withEngine_cipher (be : BitVec 2) (c : Bool) : (s.withEngine be c).cipher = s.cipher := rfl
@[simp] theorem withEngine_session (be : BitVec 2) (c : Bool) : (s.withEngine be c).session = s.session := rfl
@[simp] theorem withEngine_cap (be : BitVec 2) (c : Bool) : (s.withEngine be c).cap = c := rfl
@[simp] theorem withEngine_operands (be : BitVec 2) (c : Bool) :
    (s.withEngine be c).operands = { s.operands with backend := be } := by
  cases h : s.core <;> simp [State.operands, State.withEngine, h]

@[simp] theorem afterTurn_params (r : List HostOp) : (afterTurn s r).params = s.params := by
  cases h : s.core <;> simp [afterTurn, h]
@[simp] theorem afterTurn_host (r : List HostOp) : (afterTurn s r).host = r := by
  cases h : s.core <;> simp [afterTurn, h]
@[simp] theorem afterTurn_mem (r : List HostOp) : (afterTurn s r).mem = s.mem := by
  cases h : s.core <;> simp [afterTurn, h]
@[simp] theorem afterTurn_regs (r : List HostOp) : (afterTurn s r).regs = s.regs := by
  cases h : s.core <;> simp [afterTurn, h]
@[simp] theorem afterTurn_cipher (r : List HostOp) : (afterTurn s r).cipher = s.cipher := by
  cases h : s.core <;> simp [afterTurn, h]
@[simp] theorem afterTurn_session (r : List HostOp) : (afterTurn s r).session = s.session := by
  cases h : s.core <;> simp [afterTurn, h]
@[simp] theorem afterTurn_ownedIn (r : List HostOp) : (afterTurn s r).ownedIn = s.ownedIn := by
  cases h : s.core <;> simp [afterTurn, h]
@[simp] theorem afterTurn_ownedOut (r : List HostOp) : (afterTurn s r).ownedOut = s.ownedOut := by
  cases h : s.core <;> simp [afterTurn, h]
@[simp] theorem afterTurn_busy (r : List HostOp) : (afterTurn s r).busy = s.busy := by
  cases h : s.core <;> simp [afterTurn, State.busy, h]
@[simp] theorem afterTurn_operands (r : List HostOp) : (afterTurn s r).operands = s.operands := by
  cases h : s.core <;> simp [afterTurn, State.operands, h]

end Sys2Proof.Machine
end

