-- ==== Sys2Proof/Laws/Ops.lean ====
section
/-! SUPPORT. For each shared operation, once, what it can do: the range checks in the spec's own terms, the
checks before a command, the CMD write, and the step. -/

namespace Sys2Proof.Machine

open Sys2Proof

theorem Range.disjoint_iff (a b : Range) : a.disjoint b = true ↔ Apart a.addr a.len b.addr b.len := by
  simp [Range.disjoint, Apart, or_assoc]

theorem Range.mayPair_iff (o i : Range) :
    o.mayPair i = true ↔ InPlaceOrApart o.addr o.len i.addr i.len := by
  have he : o = i ↔ o.addr = i.addr ∧ o.len = i.len := by
    cases o; cases i; simp
  simp only [Range.mayPair, Bool.or_eq_true, decide_eq_true_eq, Range.disjoint_iff, InPlaceOrApart, he]
  exact or_comm

theorem Range.fits_iff (ms : Nat) (r : Range) : r.fits ms = true ↔ r.len = 0 ∨ r.addr + r.len ≤ ms := by
  simp [Range.fits]

theorem pairwiseDisjoint_iff (rs : List Range) :
    pairwiseDisjoint rs = true ↔ rs.Pairwise (fun a b => Apart a.addr a.len b.addr b.len) := by
  induction rs with
  | nil => simp [pairwiseDisjoint]
  | cons r rs ih => simp [pairwiseDisjoint, ih, Range.disjoint_iff]

theorem overlapLegal_iff (io : RangeSet) : io.overlapLegal = true ↔ OverlapLegal io := by
  simp [RangeSet.overlapLegal, OverlapLegal, pairwiseDisjoint_iff, Range.mayPair_iff]

theorem fits_iff (s : State) (io : RangeSet) : io.fits s.params.memSize = true ↔ AllInMemory s io := by
  simp only [RangeSet.fits, AllInMemory, Bool.and_eq_true, List.all_eq_true, Range.fits_iff, List.mem_append]
  constructor
  · rintro ⟨h1, h2⟩ r (h | h)
    · exact h1 r h
    · exact h2 r h
  · exact fun h => ⟨fun r hr => h r (.inl hr), fun r hr => h r (.inr hr)⟩

theorem tagRangeLegal_iff (i : Instr) (s : State) :
    tagRangeLegal i s.operands = true ↔ TagClear i s := by
  cases i <;> simp [tagRangeLegal, TagClear, Range.disjoint_iff]

theorem blockCountLegal_iff (i : Instr) (s : State) :
    blockCountLegal i s.operands = true ↔ BlockCountLegal i s := by
  cases i <;> simp [blockCountLegal, BlockCountLegal]

/-- When the ranges of a command are legal: R104, R80, R247, R248, R72 and R73. -/
theorem rangeRefusal_eq_none (i : Instr) (s : State) :
    rangeRefusal s.params.memSize i s.operands = none ↔
      BlockCountLegal i s ∧ OverlapLegal (commandRanges i s.operands) ∧ TagClear i s ∧
        AllInMemory s (commandRanges i s.operands) := by
  rw [← blockCountLegal_iff, ← overlapLegal_iff, ← tagRangeLegal_iff, ← fits_iff]
  unfold rangeRefusal
  cases blockCountLegal i s.operands <;> cases (commandRanges i s.operands).overlapLegal <;> cases tagRangeLegal i s.operands <;>
    cases (commandRanges i s.operands).fits s.params.memSize <;> simp

/-- With the earlier checks passed, a command is refused exactly for its ranges. -/
theorem commandRefusal_of_reaches {i : Instr} {s : State} (h : ReachesRangeChecks i s) :
    s.commandRefusal i = rangeRefusal s.params.memSize i s.operands := by
  obtain ⟨hw, hiv, hi, ha⟩ := h
  cases i <;> simp_all [State.commandRefusal, Instr.wf]

/-- A command whose earlier checks pass and whose ranges are legal is not refused. -/
theorem commandRefusal_eq_none {i : Instr} {s : State} (h : ReachesRangeChecks i s)
    (hb : BlockCountLegal i s) (ho : OverlapLegal (commandRanges i s.operands)) (ht : TagClear i s)
    (hm : AllInMemory s (commandRanges i s.operands)) : s.commandRefusal i = none := by
  rw [commandRefusal_of_reaches h, rangeRefusal_eq_none]
  exact ⟨hb, ho, ht, hm⟩

/-- What refuses a command depends only on the parameters, IV_SET and the operands. -/
theorem commandRefusal_congr {s t : State} (i : Instr) (hp : s.params = t.params)
    (hv : s.session.ivSet = t.session.ivSet) (ho : s.operands = t.operands) :
    s.commandRefusal i = t.commandRefusal i := by
  unfold State.commandRefusal
  rw [hp, hv, ho]

/-- A command that is not refused is well-formed. -/
theorem wf_of_commandRefusal {i : Instr} {s : State} (h : s.commandRefusal i = none) : i.wf = true := by
  by_contra hw
  rw [Bool.not_eq_true] at hw
  unfold State.commandRefusal at h
  rw [if_pos hw] at h
  cases h

/-- A command that is not refused passes the checks before its ranges; GCM_ENC and GCM_DEC if there is an IV. -/
theorem reaches_of_commandRefusal {i : Instr} {s : State} (h : s.commandRefusal i = none)
    (hiv : ∀ n, i = .gcmEnc n ∨ i = .gcmDec n → s.session.ivSet = true) : ReachesRangeChecks i s := by
  refine ⟨wf_of_commandRefusal h, hiv, ?_, ?_⟩ <;> rintro rfl <;> by_contra hc <;>
    simp [State.commandRefusal, Instr.wf, Nat.lt_of_not_le hc] at h

/-- The ranges of a command that is not refused are legal; those of GCM_ENC and GCM_DEC if there is an IV. -/
theorem ranges_of_commandRefusal {i : Instr} {s : State} (h : s.commandRefusal i = none)
    (hiv : ∀ n, i = .gcmEnc n ∨ i = .gcmDec n → s.session.ivSet = true) :
    BlockCountLegal i s ∧ OverlapLegal (commandRanges i s.operands) ∧ TagClear i s ∧
      AllInMemory s (commandRanges i s.operands) :=
  (rangeRefusal_eq_none i s).1 (commandRefusal_of_reaches (reaches_of_commandRefusal h hiv) ▸ h)

/-- GCM_ENC and GCM_DEC without an IV are not refused, whatever their ranges (R80, R301, R305). -/
theorem commandRefusal_noIv {s : State} {n : BitVec 5} (hn : n.toNat ≤ 16) (h : s.session.ivSet = false) :
    s.commandRefusal (.gcmEnc n) = none ∧ s.commandRefusal (.gcmDec n) = none := by
  simp [State.commandRefusal, Instr.wf, hn, h]

/-- A command's effect happens exactly when nothing refuses the command. -/
theorem checked_eq_next (i : Instr) (s t : State) (e : Host.Outcome State Fault Refusal) :
    s.checked i e = .next t ↔ s.commandRefusal i = none ∧ e = .next t := by
  cases h : s.commandRefusal i <;> simp [State.checked, h]

theorem checked_of_none {i : Instr} {s : State} (h : s.commandRefusal i = none)
    (e : Host.Outcome State Fault Refusal) : s.checked i e = e := by
  simp [State.checked, h]

theorem checked_of_some {i : Instr} {s : State} {r : Refusal} (h : s.commandRefusal i = some r)
    (e : Host.Outcome State Fault Refusal) : s.checked i e = .refused r := by
  simp [State.checked, h]

theorem checked_ne_fault {i : Instr} {s : State} {e : Host.Outcome State Fault Refusal} {r : Fault}
    (he : e ≠ .fault r) : s.checked i e ≠ .fault r := by
  cases h : s.commandRefusal i <;> simp [State.checked, h, he]

@[simp] theorem complete_eq_next (s t : State) : complete s = .next t ↔ t = s.finish .none := by
  simp [complete, eq_comm]

@[simp] theorem raise_eq_next (e : ErrCode) (s t : State) : raise e s = .next t ↔ t = s.finish e := by
  simp [raise, eq_comm]

/-- A CMD write goes on exactly when its word encodes a command that nothing refuses, and then the command is
accepted (R31, R106). -/
theorem writeCmd_eq_next (w : Word) (s t : State) :
    s.writeCmd w = .next t ↔
      ∃ i, decode w = .ok i ∧ s.commandRefusal i = none ∧ t = s.acceptCommand w i := by
  cases h : decode w with
  | error e => simp [State.writeCmd, h]
  | ok i =>
    cases hr : s.commandRefusal i with
    | some r => simp [State.writeCmd, h, hr]
    | none => simp [State.writeCmd, h, hr, eq_comm]

/-- What the core fetches. -/
theorem fetch_of_busy {s : State} {f : InFlight} {i : Instr} (hc : s.core = .busy f)
    (hd : decode f.word = .ok i) : s.fetch = some i := by
  simp [State.fetch, hc, hd]

/-- What a step can do: the core completes the command in flight, or the host makes its next access, or the
host has none to make and only its turn passes. -/
theorem step_cases {s t : State} (h : step s = .next t) :
    (∃ f i, s.core = .busy f ∧ f.turns = 0 ∧ decode f.word = .ok i ∧ exec i s = .next t) ∨
    (∃ op rest, HostMoves s op rest ∧ (afterTurn s rest).hostOp op = .next t) ∨
    (s.host = [] ∧ (∀ f, s.core = .busy f → f.turns ≠ 0) ∧ t = afterTurn s []) := by
  cases hc : s.core with
  | idle =>
    right
    cases hh : s.host with
    | nil =>
      right
      simp only [step, hc, State.hostTurn, hh, Host.Outcome.next.injEq] at h
      subst h
      exact ⟨rfl, by simp, by cases s; simp only at hc hh; subst hc hh; rfl⟩
    | cons op rest =>
      left
      refine ⟨op, rest, ⟨hh, by simp [hc]⟩, ?_⟩
      simpa [step, hc, State.hostTurn, hh, afterTurn] using h
  | busy f =>
    cases hn : f.turns with
    | zero =>
      left
      cases hd : decode f.word with
      | error e => simp [step, hc, hn, runInFlight, State.fetch, hd] at h
      | ok i =>
        refine ⟨f, i, rfl, hn, hd, ?_⟩
        simpa [step, hc, hn, runInFlight, State.fetch, hd] using h
    | succ n =>
      right
      cases hh : s.host with
      | nil =>
        right
        simp only [step, hc, hn, State.hostTurn, hh, Host.Outcome.next.injEq] at h
        subst h
        refine ⟨rfl, ?_, by cases s; simp only at hc hh; subst hc hh; simp [afterTurn, hn]⟩
        rintro g hg
        cases hg
        omega
      | cons op rest =>
        left
        refine ⟨op, rest, ⟨hh, ?_⟩, ?_⟩
        · rintro g hg
          rw [hc] at hg
          cases hg
          omega
        · simpa [step, hc, hn, State.hostTurn, hh, afterTurn] using h

/-- The host's turn in a step: its next access on the state `afterTurn` gives. -/
theorem step_hostMoves {s : State} {op : HostOp} {rest : List HostOp} (h : HostMoves s op rest) :
    step s = (afterTurn s rest).hostOp op := by
  obtain ⟨hh, hf⟩ := h
  cases hc : s.core with
  | idle => simp [step, hc, State.hostTurn, hh, afterTurn]
  | busy f =>
    obtain ⟨n, hn⟩ := Nat.exists_eq_succ_of_ne_zero (hf f hc)
    simp [step, hc, hn, State.hostTurn, hh, afterTurn]

/-! What a command names in memory does not depend on the backend selected. -/

@[simp] theorem commandRanges_backend (i : Instr) (r : OperandRegs) (b : BitVec 2) :
    commandRanges i { r with backend := b } = commandRanges i r := by
  cases i <;> rfl

@[simp] theorem tagRangeLegal_backend (i : Instr) (r : OperandRegs) (b : BitVec 2) :
    tagRangeLegal i { r with backend := b } = tagRangeLegal i r := by
  cases i <;> rfl

@[simp] theorem blockCountLegal_backend (i : Instr) (r : OperandRegs) (b : BitVec 2) :
    blockCountLegal i { r with backend := b } = blockCountLegal i r := by
  cases i <;> rfl

@[simp] theorem rangeRefusal_backend (ms : Nat) (i : Instr) (r : OperandRegs) (b : BitVec 2) :
    rangeRefusal ms i { r with backend := b } = rangeRefusal ms i r := by
  simp only [rangeRefusal, commandRanges_backend, tagRangeLegal_backend, blockCountLegal_backend]

/-- What refuses a command does not depend on the backend or on CAP. -/
@[simp] theorem withEngine_commandRefusal (be : BitVec 2) (cap : Bool) (s : State) (i : Instr) :
    (s.withEngine be cap).commandRefusal i = s.commandRefusal i := by
  have hp : (s.withEngine be cap).params = s.params := rfl
  have hs : (s.withEngine be cap).session = s.session := rfl
  unfold State.commandRefusal
  rw [withEngine_operands, hp, hs, rangeRefusal_backend]

/-- Reset's memory is in canonical form. -/
theorem reset_mem_wf : State.reset.mem.wf := by decide

end Sys2Proof.Machine
end

