-- ==== Sys2Proof/Laws/Exec.lean ====
section
/-! SUPPORT. What each command leaves behind once nothing refuses it, as one function, so that a proof about
`exec` never unfolds a meaning. -/

namespace Sys2Proof.Machine

open Sys2Proof

/-- The state a command that is not refused ends in. -/
def commandEffect (i : Instr) (s : State) : State :=
  match i with
  | .ksExpand =>
    (s.store s.operands.dst.toNat
      (scheduleBytes (keyExpand (s.readBlock s.operands.src.toNat)))).finish .none
  | .sm4SetKey =>
    State.finish .none { s with
      cipher := { rk := keyExpand (s.readBlock s.operands.src.toNat), keyed := true } }
  | .sm4Enc =>
    (s.store s.operands.dst.toNat (blockBytes
      (engineCrypt s.backend s.cipher.rk .enc (s.readBlock s.operands.src.toNat)))).finish .none
  | .sm4Dec =>
    (s.store s.operands.dst.toNat (blockBytes
      (engineCrypt s.backend s.cipher.rk .dec (s.readBlock s.operands.src.toNat)))).finish .none
  | .sm4EncBlocks => (s.store s.operands.dst.toNat (s.cryptedBlocks .enc)).finish .none
  | .sm4DecBlocks => (s.store s.operands.dst.toNat (s.cryptedBlocks .dec)).finish .none
  | .sm4Clear => State.finish .none { s with cipher := { rk := Schedule.zero, keyed := false } }
  | .gfMul =>
    (s.store s.operands.dst.toNat (blockBytes
      (gfMul (s.readBlock s.operands.src.toNat) (s.readBlock s.operands.src2.toNat)))).finish .none
  | .ghash =>
    (s.store s.operands.dst.toNat (blockBytes (ghash (s.readBlock s.operands.src2.toNat)
      (s.mem.readBytes s.operands.src.toNat s.operands.len.toNat)))).finish .none
  | .gcmSetKey =>
    State.finish .none { s with
      session := s.session.withKey s.backend (s.readBlock s.operands.src.toNat) }
  | .gcmSetIv =>
    State.finish .none { s with
      session := { s.session with
        iv := s.mem.readBytes s.operands.src.toNat s.operands.len.toNat
        ivSet := decide (0 < s.operands.len.toNat) || s.params.emptyIvCountsAsSet } }
  | .gcmSetAad =>
    State.finish .none { s with
      session := { s.session with
        aad := s.mem.readBytes s.operands.src.toNat s.operands.len.toNat } }
  | .gcmEnc t =>
    if s.session.ivSet = false then s.finish .invalidState
    else
      ((s.store s.operands.dst.toNat (s.session.ctr s.params s.backend s.gcmInput)).store
        s.operands.tag.toNat (s.session.tag s.params s.backend
          (s.session.ctr s.params s.backend s.gcmInput) t.toNat)).finish .none
  | .gcmDec t =>
    if s.session.ivSet = false then s.finish .invalidState
    else if s.session.tag s.params s.backend s.gcmInput t.toNat
        ≠ s.mem.readBytes s.operands.tag.toNat t.toNat then s.finish .authFail
    else (s.store s.operands.dst.toNat (s.session.ctr s.params s.backend s.gcmInput)).finish .none
  | .gcmClear => State.finish .none { s with session := s.session.clear s.params.clearIvMode }

/-- A command is its checks and then its effect. -/
theorem exec_eq (i : Instr) (s : State) : exec i s = s.checked i (.next (commandEffect i s)) := by
  cases i with
  | gcmEnc t =>
    by_cases h : s.session.ivSet = false <;>
      simp [exec, execGcmEnc, commandEffect, complete, raise, h]
  | gcmDec t =>
    by_cases h : s.session.ivSet = false
    · simp [exec, execGcmDec, commandEffect, raise, h]
    · by_cases h2 : s.session.tag s.params s.backend s.gcmInput t.toNat
          = s.mem.readBytes s.operands.tag.toNat t.toNat <;>
        simp [exec, execGcmDec, commandEffect, complete, raise, h, h2]
  | ksExpand | sm4SetKey | sm4Enc | sm4Dec | sm4EncBlocks | sm4DecBlocks | sm4Clear | gfMul | ghash
    | gcmSetKey | gcmSetIv | gcmSetAad | gcmClear => rfl

/-- A command that nothing refuses ends in its effect. -/
theorem exec_of_none {i : Instr} {s : State} (h : s.commandRefusal i = none) :
    exec i s = .next (commandEffect i s) := by
  rw [exec_eq, checked_of_none h]

/-- Inversion: a command that goes on was not refused and ended in its effect. -/
theorem exec_eq_next {i : Instr} {s t : State} :
    exec i s = .next t ↔ s.commandRefusal i = none ∧ t = commandEffect i s := by
  rw [exec_eq, checked_eq_next]
  simp [eq_comm]

/-- Inversion: a command that is refused is refused by its checks. -/
theorem exec_eq_refused {i : Instr} {s : State} {r : Refusal} :
    exec i s = .refused r ↔ s.commandRefusal i = some r := by
  rw [exec_eq]
  cases h : s.commandRefusal i <;> simp [State.checked, h]

/-- What a host access that goes on can be. -/
theorem busWrite_eq_next {s t : State} {a w : Nat} {v : Word} (h : s.busWrite a w v = .next t) :
    (touchesWindow s.params a w = false ∧ t = s) ∨
      (touchesWindow s.params a w = true ∧ isWordAccess s.params a w = true ∧
        s.writeReg (a - s.params.regBase) v = .next t) := by
  unfold State.busWrite at h
  split_ifs at h with h1 h2
  · exact .inl ⟨h1, (Host.Outcome.next.inj h).symm⟩
  · exact .inr ⟨by simpa using h1, by simpa using h2, h⟩

/-- A register write that goes on: a command accepted, registers written while IDLE, or nothing. -/
theorem writeReg_eq_next {s t : State} {off : Nat} {v : Word} (h : s.writeReg off v = .next t) :
    (s.busy = false ∧ ∃ i, decode v = .ok i ∧ s.commandRefusal i = none ∧ t = s.acceptCommand v i) ∨
      (s.busy = false ∧ ∃ r, t = { s with regs := r }) ∨ t = s := by
  unfold State.writeReg at h
  by_cases hb : s.busy = true
  · simp only [State.writeRegs, hb, if_true] at h
    split_ifs at h
    exact .inr (.inr (Host.Outcome.next.inj h).symm)
  · have hb' : s.busy = false := by simpa using hb
    simp only [State.writeRegs, hb] at h
    split_ifs at h
    · exact .inl ⟨hb', (writeCmd_eq_next v s t).1 h⟩
    all_goals exact .inr (.inl ⟨hb', _, (Host.Outcome.next.inj h).symm⟩)

end Sys2Proof.Machine
end

