-- ==== Sys2Proof/Laws/HostPort.lean ====
section
/-! SUPPORT. What a step does when the host's next access is a word access to a register. -/

namespace Sys2Proof.Machine

open Sys2Proof

theorem busy_of_idle {s : State} (h : s.core = .idle) : s.busy = false := by
  simp [State.busy, h]

theorem busy_of_busy {s : State} {f : InFlight} (h : s.core = .busy f) : s.busy = true := by
  simp [State.busy, h]

/-- A 32-bit access at a multiple of 4 inside the window is a legal one (R79). -/
theorem word_access (p : Params) (off : Nat) (h : off < 256) (h4 : off % 4 = 0) :
    touchesWindow p (p.regBase + off) 4 = true ∧ isWordAccess p (p.regBase + off) 4 = true := by
  constructor
  · simp [touchesWindow, Range.disjoint, windowSize]
    omega
  · simp [isWordAccess, windowSize]
    omega

/-- A word write to a register is the register write on the state `afterTurn` gives. -/
theorem step_regWrite {s : State} {off : Nat} {v : Word} {rest : List HostOp} (h : off < 256)
    (h4 : off % 4 = 0) (hm : HostMoves s (.write (s.params.regBase + off) 4 v) rest) :
    step s = (afterTurn s rest).writeReg off v := by
  obtain ⟨ha, hb⟩ := word_access s.params off h h4
  rw [step_hostMoves hm]
  simp [State.hostOp, State.busWrite, ha, hb]

/-- A word read of a register is the register read on the state `afterTurn` gives. -/
theorem step_regRead {s : State} {off : Nat} {rest : List HostOp} (h : off < 256) (h4 : off % 4 = 0)
    (hm : HostMoves s (.read (s.params.regBase + off) 4) rest) :
    step s = .next ((afterTurn s rest).readReg off) := by
  obtain ⟨ha, hb⟩ := word_access s.params off h h4
  rw [step_hostMoves hm]
  simp [State.hostOp, State.busRead, ha, hb]

/-- What refuses a command does not change while the host has a turn. -/
@[simp] theorem afterTurn_commandRefusal (s : State) (r : List HostOp) (i : Instr) :
    (afterTurn s r).commandRefusal i = s.commandRefusal i := by
  cases i <;> simp [State.commandRefusal]

end Sys2Proof.Machine
end

