-- ==== Sys2Proof/Laws/Memory.lean ====
section
/-! SUPPORT. The laws of the data memory: read after write, and the canonical form is kept. -/

namespace Sys2Proof.Machine

open Sys2Proof

@[simp] theorem Memory.readByte_nil (a : Nat) : Memory.readByte [] a = 0 := rfl

theorem Memory.wf_nil : Memory.wf [] := by simp [Memory.wf]

theorem Memory.wf_cons (c : Host.Cell) (m : Memory) :
    Memory.wf (c :: m) ↔ (∀ d ∈ m, c.1 < d.1) ∧ c.2 ≠ 0 ∧ Memory.wf m := by
  simp only [Memory.wf, List.pairwise_cons, List.forall_mem_cons, Memory.unlisted]
  constructor
  · rintro ⟨⟨h1, h2⟩, h3, h4⟩; exact ⟨h1, h3, h2, h4⟩
  · rintro ⟨h1, h3, h2, h4⟩; exact ⟨⟨h1, h2⟩, h3, h4⟩

/-- An address below every listed one is unlisted. -/
theorem Memory.readByte_of_lt (m : Memory) (a : Nat) (h : ∀ c ∈ m, a < c.1) : m.readByte a = 0 := by
  induction m with
  | nil => rfl
  | cons c m ih =>
    have hc := h c (by simp)
    simp only [Memory.readByte]
    rw [if_neg (by omega)]
    exact ih fun d hd => h d (by simp [hd])

/-- Writing a byte leaves every other address alone. -/
theorem Memory.readByte_writeByte_ne (m : Memory) (a x : Nat) (b : Byte) (h : x ≠ a) :
    (m.writeByte a b).readByte x = m.readByte x := by
  induction m with
  | nil =>
    simp only [Memory.writeByte]
    split_ifs <;> simp [Memory.readByte, h]
  | cons c m ih =>
    simp only [Memory.writeByte, Memory.unlisted]
    split_ifs with h1 h2 h3 h4
    · rfl
    · simp [Memory.readByte, h]
    · subst h3; simp [Memory.readByte, h]
    · subst h3; simp [Memory.readByte, h]
    · simp only [Memory.readByte, ih]

/-- A byte written is the byte read. -/
theorem Memory.readByte_writeByte_self (m : Memory) (a : Nat) (b : Byte) (hm : m.wf) :
    (m.writeByte a b).readByte a = b := by
  induction m with
  | nil =>
    simp only [Memory.writeByte]
    split_ifs with hb
    · exact hb.symm
    · simp [Memory.readByte]
  | cons c m ih =>
    rw [Memory.wf_cons] at hm
    obtain ⟨hlt, -, hw⟩ := hm
    simp only [Memory.writeByte, Memory.unlisted]
    split_ifs with h1 h2 h3 h4
    · rw [h2, Memory.readByte, if_neg (by omega)]
      exact Memory.readByte_of_lt m a fun d hd => lt_trans h1 (hlt d hd)
    · simp [Memory.readByte]
    · rw [h4]
      exact Memory.readByte_of_lt m a fun d hd => by rw [h3]; exact hlt d hd
    · simp [Memory.readByte]
    · rw [Memory.readByte, if_neg h3]; exact ih hw

/-- Read after one write, for every address. -/
theorem Memory.readByte_writeByte (m : Memory) (a x : Nat) (b : Byte) (hm : m.wf) :
    (m.writeByte a b).readByte x = if x = a then b else m.readByte x := by
  split_ifs with h
  · rw [h]; exact m.readByte_writeByte_self a b hm
  · exact m.readByte_writeByte_ne a x b h

/-- A listed cell after a write was listed before, or is the cell written. -/
theorem Memory.mem_writeByte (m : Memory) (a : Nat) (b : Byte) (c : Host.Cell)
    (h : c ∈ m.writeByte a b) : c ∈ m ∨ c = (a, b) := by
  induction m with
  | nil =>
    simp only [Memory.writeByte] at h
    split_ifs at h with hb
    · exact absurd h (by simp)
    · exact .inr (by simpa using h)
  | cons d m ih =>
    simp only [Memory.writeByte, Memory.unlisted] at h
    split_ifs at h with h1 h2 h3 h4
    · exact .inl h
    · rcases List.mem_cons.1 h with h | h
      · exact .inr h
      · exact .inl h
    · exact .inl (List.mem_cons_of_mem d h)
    · rcases List.mem_cons.1 h with h | h
      · exact .inr h
      · exact .inl (List.mem_cons_of_mem d h)
    · rcases List.mem_cons.1 h with h | h
      · exact .inl (by simp [h])
      · rcases ih h with h | h
        · exact .inl (List.mem_cons_of_mem d h)
        · exact .inr h

/-- A write keeps the canonical form. -/
theorem Memory.wf_writeByte (m : Memory) (a : Nat) (b : Byte) (hm : m.wf) : (m.writeByte a b).wf := by
  induction m with
  | nil =>
    simp only [Memory.writeByte]
    split_ifs with hb
    · exact Memory.wf_nil
    · exact ⟨by simp, by simpa using hb⟩
  | cons c m ih =>
    have hm0 := hm
    rw [Memory.wf_cons] at hm
    obtain ⟨hlt, hne, hw⟩ := hm
    simp only [Memory.writeByte, Memory.unlisted]
    split_ifs with h1 h2 h3 h4
    · exact hm0
    · rw [Memory.wf_cons]
      refine ⟨fun d hd => ?_, h2, hm0⟩
      rcases List.mem_cons.1 hd with rfl | hd
      · exact h1
      · exact lt_trans h1 (hlt d hd)
    · exact hw
    · rw [Memory.wf_cons]; exact ⟨fun d hd => by rw [h3]; exact hlt d hd, h4, hw⟩
    · rw [Memory.wf_cons]
      refine ⟨fun d hd => ?_, hne, ih hw⟩
      rcases Memory.mem_writeByte m a b d hd with hd | rfl
      · exact hlt d hd
      · show c.1 < a
        omega

/-- A byte-string write keeps the canonical form. -/
theorem Memory.wf_writeBytes (bs : List Byte) (m : Memory) (a : Nat) (hm : m.wf) :
    (m.writeBytes a bs).wf := by
  induction bs generalizing m a with
  | nil => exact hm
  | cons b bs ih => exact ih _ _ (m.wf_writeByte a b hm)

/-- A byte-string write lists no address outside its range. -/
theorem Memory.mem_writeBytes (bs : List Byte) (m : Memory) (a : Nat) (c : Host.Cell)
    (h : c ∈ m.writeBytes a bs) : c ∈ m ∨ (a ≤ c.1 ∧ c.1 < a + bs.length) := by
  induction bs generalizing m a with
  | nil => exact .inl h
  | cons b bs ih =>
    rcases ih _ _ h with h | h
    · rcases Memory.mem_writeByte m a b c h with h | rfl
      · exact .inl h
      · exact .inr (by simp)
    · exact .inr (by simp only [List.length_cons]; omega)

/-- A byte-string write below a limit lists no address at or above it. -/
theorem Memory.writeBytes_lt (bs : List Byte) (m : Memory) (a n : Nat) (h : ∀ c ∈ m, c.1 < n)
    (hb : bs.length = 0 ∨ a + bs.length ≤ n) : ∀ c ∈ m.writeBytes a bs, c.1 < n := by
  intro c hc
  rcases Memory.mem_writeBytes bs m a c hc with h' | h'
  · exact h c h'
  · omega

/-- A byte-string write leaves every address below it alone. -/
theorem Memory.readByte_writeBytes_of_lt (bs : List Byte) (m : Memory) (a x : Nat) (h : x < a) :
    (m.writeBytes a bs).readByte x = m.readByte x := by
  induction bs generalizing m a with
  | nil => rfl
  | cons b bs ih =>
    rw [Memory.writeBytes, ih _ _ (by omega), Memory.readByte_writeByte_ne _ _ _ _ (by omega)]

/-- Read after a byte-string write, for every address: the range takes the bytes, the rest is as before
(R73). -/
theorem Memory.readByte_writeBytes (bs : List Byte) (m : Memory) (a x : Nat) (hm : m.wf) :
    (m.writeBytes a bs).readByte x
      = if a ≤ x ∧ x < a + bs.length then bs.getD (x - a) 0 else m.readByte x := by
  induction bs generalizing m a with
  | nil =>
    rw [if_neg (by simp)]; rfl
  | cons b bs ih =>
    rw [Memory.writeBytes, ih _ _ (m.wf_writeByte a b hm)]
    by_cases hx : x = a
    · subst hx
      rw [if_neg (by omega), if_pos (by simp), m.readByte_writeByte_self x b hm]
      simp
    · rw [m.readByte_writeByte_ne a x b hx]
      by_cases h : a + 1 ≤ x ∧ x < a + 1 + bs.length
      · rw [if_pos h, if_pos (by simp only [List.length_cons]; omega)]
        obtain ⟨k, rfl⟩ : ∃ k, x = a + 1 + k := ⟨x - (a + 1), by omega⟩
        have h1 : a + 1 + k - (a + 1) = k := by omega
        have h2 : a + 1 + k - a = k + 1 := by omega
        rw [h1, h2]; simp
      · rw [if_neg h, if_neg (by simp only [List.length_cons]; omega)]

@[simp] theorem Memory.readBytes_length (m : Memory) (a n : Nat) : (m.readBytes a n).length = n := by
  induction n generalizing a with
  | zero => rfl
  | succ n ih => simp [Memory.readBytes, ih]

/-- The k-th byte of a byte-string read is `M[a + k]` (R72). -/
theorem Memory.readBytes_getD (m : Memory) (a n k : Nat) (h : k < n) :
    (m.readBytes a n).getD k 0 = m.readByte (a + k) := by
  induction n generalizing a k with
  | zero => omega
  | succ n ih =>
    cases k with
    | zero => simp [Memory.readBytes]
    | succ k =>
      have := ih (a + 1) k (by omega)
      simp only [Memory.readBytes, List.getD_cons_succ, this]
      congr 1; omega

/-- A read depends only on the bytes of its range. -/
theorem Memory.readBytes_congr (m m' : Memory) (a n : Nat)
    (h : ∀ x, a ≤ x → x < a + n → m.readByte x = m'.readByte x) : m.readBytes a n = m'.readBytes a n := by
  induction n generalizing a with
  | zero => rfl
  | succ n ih =>
    rw [Memory.readBytes, Memory.readBytes, h a (by omega) (by omega),
      ih (a + 1) fun x h1 h2 => h x (by omega) (by omega)]

/-- A byte string read back where it was written. -/
theorem Memory.readBytes_writeBytes_same (bs : List Byte) (m : Memory) (a : Nat) (hm : m.wf) :
    (m.writeBytes a bs).readBytes a bs.length = bs := by
  induction bs generalizing m a with
  | nil => rfl
  | cons b bs ih =>
    simp only [List.length_cons, Memory.readBytes, Memory.writeBytes]
    rw [ih _ _ (m.wf_writeByte a b hm), Memory.readByte_writeBytes_of_lt _ _ _ _ (by omega),
      m.readByte_writeByte_self a b hm]

end Sys2Proof.Machine
end

