-- ==== Sys2Proof/Laws/PerInstr.lean ====
section
/-! SUPPORT. Statements for every command as syntax. -/

/-- The four fields of an encoded command: its OPCODE, its TAGLEN, and zero reserved bits (R33, R100). -/
def Sys2Proof.Laws.EncodedFields.Statement (i : Sys2Proof.Instr) : Prop :=
  Sys2Proof.opcodeField (Sys2Proof.encode i) = i.opcode ∧
    Sys2Proof.tagLenField (Sys2Proof.encode i) = i.tagLenBits ∧
    Sys2Proof.lowReservedField (Sys2Proof.encode i) = 0 ∧
    Sys2Proof.highReservedField (Sys2Proof.encode i) = 0

namespace Sys2Proof.Laws.EncodedFields

open Sys2Proof

theorem ksExpand : Statement .ksExpand := by unfold Statement; decide
theorem sm4SetKey : Statement .sm4SetKey := by unfold Statement; decide
theorem sm4Enc : Statement .sm4Enc := by unfold Statement; decide
theorem sm4Dec : Statement .sm4Dec := by unfold Statement; decide
theorem sm4EncBlocks : Statement .sm4EncBlocks := by unfold Statement; decide
theorem sm4DecBlocks : Statement .sm4DecBlocks := by unfold Statement; decide
theorem sm4Clear : Statement .sm4Clear := by unfold Statement; decide
theorem gfMul : Statement .gfMul := by unfold Statement; decide
theorem ghash : Statement .ghash := by unfold Statement; decide
theorem gcmSetKey : Statement .gcmSetKey := by unfold Statement; decide
theorem gcmSetIv : Statement .gcmSetIv := by unfold Statement; decide
theorem gcmSetAad : Statement .gcmSetAad := by unfold Statement; decide
theorem gcmEnc (t : BitVec 5) : Statement (.gcmEnc t) := by unfold Statement; revert t; decide
theorem gcmDec (t : BitVec 5) : Statement (.gcmDec t) := by unfold Statement; revert t; decide
theorem gcmClear : Statement .gcmClear := by unfold Statement; decide

end Sys2Proof.Laws.EncodedFields
end

