-- ==== Sys2Proof/Tests/Slice0.lean ====
section
/-! SUPPORT. Tests with expected results from spec/95_test_vectors.md and the rules, and a witness for the
hypotheses of each obligation. Every expected value is the spec's. -/

namespace Sys2Proof.Tests

-- One theorem after the other: each evaluates in the kernel, and all at once would each hold a thread.
set_option Elab.async false

open Sys2Proof Sys2Proof.Machine

/-! ### Helpers -/

/-- The next state of an outcome, if it is one. -/
def next? : Host.Outcome State Fault Refusal → Option State
  | .next t => some t
  | .fault _ => none
  | .refused _ => none

/-- Why an outcome is refused, if it is. -/
def refusal? : Host.Outcome State Fault Refusal → Option Refusal
  | .next _ => none
  | .fault _ => none
  | .refused r => some r

/-- The outcome of one step whose command word is `w`. -/
def run (w : Nat) (s : State) : Host.Outcome State Fault Refusal := step (s.withFetchWord 32 w)

/-- `n` bytes at `a` after an outcome. -/
def bytesAfter (o : Host.Outcome State Fault Refusal) (a n : Nat) : Option (List Byte) :=
  (next? o).map (fun t => t.mem.readBytes a n)

/-- STATUS after an outcome. -/
def statusAfter (o : Host.Outcome State Fault Refusal) : Option Word := (next? o).map State.idleStatus

/-- K, y and P64 of spec/95. -/
def keyK : Block := 0x0123456789abcdeffedcba9876543210
def pointY : Block := 0x66e94bd4ef8a2c3b884cfa59ca342b2e
def p64 : List Byte :=
  blocksBytes [0xaaaaaaaaaaaaaaaabbbbbbbbbbbbbbbb, 0xccccccccccccccccdddddddddddddddd,
    0xeeeeeeeeeeeeeeeeffffffffffffffff, 0xeeeeeeeeeeeeeeeeaaaaaaaaaaaaaaaa]
def iv12 : List Byte := [0x00, 0x00, 0x12, 0x34, 0x56, 0x78, 0x00, 0x00, 0x00, 0x00, 0xab, 0xcd]
def aad20 : List Byte := blockBytes 0xfeedfacedeadbeeffeedfacedeadbeef ++ [0xab, 0xad, 0xda, 0xd2]
/-- The ciphertext of V17. -/
def c64 : List Byte :=
  blocksBytes [0x17f399f08c67d5ee19d0dc9969c4bb7d, 0x5fd46fd3756489069157b282bb200735,
    0xd82710ca5c22f0ccfa7cbf93d496ac15, 0xa56834cbcf98c397b4024a2691233b8d]

/-- A state after reset with the given bytes at 0x100 and operands that are clear of each other. -/
def start (bs : List Byte) (len : Word) : State :=
  { State.reset.withMem 0x100 bs with
    regs := { OperandRegs.zero with src := 0x100, src2 := 0x180, dst := 0x200, len := len, tag := 0x300 } }

/-- The cipher context keyed with K. -/
def keyed (s : State) : State := { s with cipher := { rk := keyExpand keyK, keyed := true } }

/-- The session keyed with K, with an IV and an AAD. -/
def withSession (iv aad : List Byte) (s : State) : State :=
  { s with
    session :=
      { rk := keyExpand keyK, h := 0x2677f46b09c122cc975533105bd4a22a, iv := iv, ivSet := true, aad := aad,
        keyed := true } }

/-- The NIST choices of R11. -/
def nist (s : State) : State :=
  { s with params := { s.params with authLayout := .nistPadded, ivExpansion := .nistLengthBlock } }

/-- Operand registers with BACKEND 0. -/
def operands (src src2 dst len tag : Word) (s : State) : State :=
  { s with regs := { src := src, src2 := src2, dst := dst, len := len, tag := tag, backend := 0 } }

/-- The host's next access. -/
def hostDoes (op : HostOp) (s : State) : State := { s with host := [op] }

/-! ### Well-formedness: one ill-formed term per check -/

theorem test_tagLen_17_is_ill_formed : (Instr.gcmEnc 17).wf = false ∧ (Instr.gcmDec 17).wf = false := by decide
theorem test_tagLen_0_and_16_are_well_formed :
    (Instr.gcmEnc 0).wf = true ∧ (Instr.gcmEnc 16).wf = true ∧ (Instr.gcmDec 0).wf = true := by decide
theorem test_params_no_memory_is_ill_formed : { Params.default with memSize := 0 }.wf = false := by decide
theorem test_params_too_much_memory_is_ill_formed :
    { Params.default with memSize := 2 ^ 32 + 1 }.wf = false := by decide
theorem test_params_small_iv_buffer_is_ill_formed :
    { Params.default with maxIvBytes := 11 }.wf = false := by decide
theorem test_params_default_is_well_formed : Params.default.wf = true := by decide
theorem test_memory_zero_byte_is_ill_formed : ¬ Memory.wf [(3, 0)] := by decide
theorem test_memory_falling_addresses_is_ill_formed : ¬ Memory.wf [(3, 1), (3, 2)] := by decide

/-! ### Decoding: the words of R102 and V24, written out bit by bit (OPCODE 5:0, TAGLEN 12:8) -/

theorem test_decode_ksExpand : decode 0b0000000000000000000_00000_00_000001 = .ok .ksExpand := by decide
theorem test_decode_sm4SetKey : decode 0b0000000000000000000_00000_00_000010 = .ok .sm4SetKey := by decide
theorem test_decode_sm4Enc : decode 0b0000000000000000000_00000_00_000011 = .ok .sm4Enc := by decide
theorem test_decode_sm4Dec : decode 0b0000000000000000000_00000_00_000100 = .ok .sm4Dec := by decide
theorem test_decode_sm4EncBlocks : decode 0b0000000000000000000_00000_00_000101 = .ok .sm4EncBlocks := by decide
theorem test_decode_sm4DecBlocks : decode 0b0000000000000000000_00000_00_000110 = .ok .sm4DecBlocks := by decide
theorem test_decode_sm4Clear : decode 0b0000000000000000000_00000_00_000111 = .ok .sm4Clear := by decide
theorem test_decode_gfMul : decode 0b0000000000000000000_00000_00_010001 = .ok .gfMul := by decide
theorem test_decode_ghash : decode 0b0000000000000000000_00000_00_010010 = .ok .ghash := by decide
theorem test_decode_gcmSetKey : decode 0b0000000000000000000_00000_00_100001 = .ok .gcmSetKey := by decide
theorem test_decode_gcmSetIv : decode 0b0000000000000000000_00000_00_100010 = .ok .gcmSetIv := by decide
theorem test_decode_gcmSetAad : decode 0b0000000000000000000_00000_00_100011 = .ok .gcmSetAad := by decide
theorem test_decode_gcmEnc : decode 0b0000000000000000000_10000_00_100100 = .ok (.gcmEnc 16) := by decide
theorem test_decode_gcmEnc_tagLen_0 : decode 0b0000000000000000000_00000_00_100100 = .ok (.gcmEnc 0) := by decide
theorem test_decode_gcmDec : decode 0b0000000000000000000_01100_00_100101 = .ok (.gcmDec 12) := by decide
theorem test_decode_gcmClear : decode 0b0000000000000000000_00000_00_100110 = .ok .gcmClear := by decide

theorem test_decode_reserved_opcodes :
    decode 0x00000000 = .error .unknownOpcode ∧ decode 0x00000008 = .error .unknownOpcode ∧
    decode 0x00000010 = .error .unknownOpcode ∧ decode 0x00000027 = .error .unknownOpcode ∧
    decode 0x0000003F = .error .unknownOpcode := by decide
theorem test_decode_reserved_tagLens :
    decode 0x00001124 = .error .tagLenOver16 ∧ decode 0x00000103 = .error .tagLenNotZero := by decide
theorem test_decode_reserved_bits :
    decode 0x00000043 = .error .bits7to6NotZero ∧ decode 0x00000083 = .error .bits7to6NotZero ∧
    decode 0x00002024 = .error .highBitsNotZero ∧ decode 0x80000003 = .error .highBitsNotZero := by decide
theorem test_decodeTableWord :
    decodeTableWord 32 0x1024 = some (.gcmEnc 16) ∧ decodeTableWord 32 0x2024 = none ∧
    decodeTableWord 32 0x26 = some .gcmClear := by decide

/-! ### Primitives (V5), schedules (V2, V3), byte order -/

theorem test_byte_order :
    bytes32 0x01234567 = [0x01, 0x23, 0x45, 0x67] ∧
    be64bytes 0x2a0 = [0, 0, 0, 0, 0, 0, 0x02, 0xa0] ∧
    bytesBlock [0, 1, 2, 3, 4, 5, 6, 7, 8, 9, 10, 11, 12, 13, 14, 15]
      = 0x000102030405060708090a0b0c0d0e0f := by decide
theorem test_rotl : rotl 0x80000000 1 = 0x00000001 ∧ rotl 0x01234567 8 = 0x23456701 := by decide
theorem test_tau : tau 0x00000000 = 0xD6D6D6D6 ∧ tau 0x01234567 = 0x90F473A2 := by decide
theorem test_L :
    linL 0x00000001 = 0x01040405 ∧ linL 0x80000000 = 0x80820202 ∧ linL 0xFFFFFFFF = 0xFFFFFFFF := by decide
theorem test_Lp :
    linLp 0x00000001 = 0x00802001 ∧ linLp 0 = 0 ∧ linLp 0xFFFFFFFF = 0xFFFFFFFF := by decide
theorem test_Tround :
    tRound 0x01234567 = 0x6EF180C9 ∧ tableRound 0x01234567 = 0x6EF180C9 := by decide
theorem test_T_tables :
    tTable 0 0x00 = 0x8ED55B5B ∧ tTable 1 0x00 = 0x5B8ED55B ∧ tTable 2 0x00 = 0x5B5B8ED5 ∧
    tTable 3 0x00 = 0xD55B5B8E ∧ tTable 0 0xFF = 0x68492121 ∧ tTable 3 0xFF = 0x49212168 := by decide
theorem test_invSbox_undoes_sbox : ∀ b : Byte, invSbox (sbox b) = b ∧ sbox (invSbox b) = b := by decide +kernel

/-- V2. -/
def scheduleK : List Word :=
  [0xF12186F9, 0x41662B61, 0x5A6AB19A, 0x7BA92077, 0x367360F4, 0x776A0C61, 0xB6BB89B3, 0x24763151] ++
  [0xA520307C, 0xB7584DBD, 0xC30753ED, 0x7EE55B57, 0x6988608C, 0x30D895B7, 0x44BA14AF, 0x104495A1] ++
  [0xD120B428, 0x73B55FA3, 0xCC874966, 0x92244439, 0xE89E641F, 0x98CA015A, 0xC7159060, 0x99E1FD2E] ++
  [0xB79BD80C, 0x1D2115B0, 0x0E228AEB, 0xF1780C81, 0x428D3654, 0x62293496, 0x01CF72E5, 0x9124A012]

/-- V1: the input words of the block K and its round trace X4 to X35. -/
def traceK : List Word :=
  [0x01234567, 0x89ABCDEF, 0xFEDCBA98, 0x76543210] ++
  [0x27FAD345, 0xA18B4CB2, 0x11C1E22A, 0xCC13E2EE, 0xF87C5BD5, 0x33220757, 0x77F4C297, 0x7A96F2EB] ++
  [0x27DAC07F, 0x42DD0F19, 0xB8A5DA02, 0x907127FA, 0x8B952B83, 0xD42B7C59, 0x2FFC5831, 0xF69E6888] ++
  [0xAF2432C4, 0xED1EC85E, 0x55A3BA22, 0x124B18AA, 0x6AE7725F, 0xF4CBA1F9, 0x1DCDFA10, 0x2FF60603] ++
  [0xEFF24FDC, 0x6FE46B75, 0x893450AD, 0x7B938F4C, 0x536E4246, 0x86B3E94F, 0xD206965E, 0x681EDF34]

theorem test_schedule_of_K : (keyExpand keyK).toList = scheduleK := by decide +kernel
theorem test_schedule_of_zero_key :
    (keyExpand 0).toList.take 2 = [0x45603B23, 0x26440963] ∧ (keyExpand 0).toList.getLast? = some 0xA16CA108 := by
  decide +kernel
theorem test_gfMul_reduction :
    gfMul 0x40000000000000000000000000000000 1 = 0xe1000000000000000000000000000000 ∧
    gfMul 1 1 = 0xe6080000000000000000000000000003 := by decide +kernel
theorem test_inc32_wraps :
    inc32 0xffffffff = 0 ∧
    inc32 0xffffffffffffffffffffffff00000005 = 0xffffffffffffffffffffffff00000006 := by decide +kernel
theorem test_j0_nist_expansion :
    (withSession (blockBytes 0xcafebabefacedbad |>.drop 8) [] (nist State.reset)).session.j0
      (nist State.reset).params = 0x92130fb8aea18961935d9e1a8f62a107 := by decide +kernel

/-! ### Commands, one step each -/

theorem test_ksExpand_writes_schedule :
    bytesAfter (run 0x01 (start (blockBytes keyK) 0)) 0x200 128 = some (scheduleK.flatMap bytes32) := by
  decide +kernel
/-- R80: the 128 output bytes at SRC overlap the 16 input bytes and are not the same range. -/
theorem test_ksExpand_in_place_is_refused : refusal? (run 0x01 State.reset) = some .overlap := by decide +kernel
theorem test_sm4SetKey_status_and_schedule :
    (next? (run 0x02 (start (blockBytes keyK) 0))).map (fun t => (t.cipher.rk.toList, t.idleStatus))
      = some (scheduleK, 0x00000012) := by decide +kernel
theorem test_sm4Enc_known_answer :
    bytesAfter (run 0x03 (keyed (start (blockBytes keyK) 0))) 0x200 16
      = some (blockBytes 0x681edf34d206965e86b3e94f536e4246) := by decide +kernel
theorem test_sm4Enc_unkeyed :
    bytesAfter (run 0x03 (start [] 0)) 0x200 16 = some (blockBytes 0x767676766d6d6d6d1818181839393939) := by
  decide +kernel
theorem test_sm4Dec_known_answer :
    bytesAfter (run 0x04 (keyed (start (blockBytes 0x2677f46b09c122cc975533105bd4a22a) 0))) 0x200 16
      = some (blockBytes 0) := by decide +kernel

/-- V10. -/
def plain5 : List Byte :=
  blocksBytes [keyK, 0, 0xffffffffffffffffffffffffffffffff, 0x00112233445566778899aabbccddeeff,
    0x681edf34d206965e86b3e94f536e4246]
def cipher5 : List Byte :=
  blocksBytes [0x681edf34d206965e86b3e94f536e4246, 0x2677f46b09c122cc975533105bd4a22a,
    0x6811af7e097364e786fb45ce5d9a60f0, 0x09325c4853832dcb9337a5984f671b9a,
    0xf324184f3c8892b72bdc9d7c612919de]

/-- In lockstep: BATCHED with CAP = 1. -/
theorem test_sm4EncBlocks_batched :
    bytesAfter (run 0x05 (State.withEngine 3 true (keyed (start plain5 5)))) 0x200 80 = some cipher5 := by
  decide +kernel
theorem test_sm4EncBlocks_partial_overlap_is_refused :
    refusal? (run 0x05 (operands 0x100 0 0x110 2 0 State.reset)) = some .overlap := by decide +kernel
/-- With the T-tables. -/
theorem test_sm4DecBlocks_table :
    bytesAfter (run 0x06 (State.withEngine 1 false (keyed (start cipher5 5)))) 0x200 80 = some plain5 := by
  decide +kernel
/-- V11. -/
theorem test_sm4DecBlocks_too_many_is_refused :
    refusal? (run 0x06 (operands 0 0 0x400 0x10000000 0 State.reset)) = some .outOfRange := by decide +kernel
theorem test_sm4Clear :
    (next? (run 0x07 (keyed State.reset))).map (fun t => (t.cipher, t.idleStatus))
      = some (CipherContext.cleared, 0x00000002) := by decide +kernel
theorem test_gfMul_product :
    bytesAfter (run 0x11 ((start (blockBytes keyK) 0).withMem 0x180 (blockBytes pointY))) 0x200 16
      = some (blockBytes 0xc2d1f121b3f5177de28d80fc0a64fd6b) := by decide +kernel
theorem test_gfMul_square_in_place :
    bytesAfter (run 0x11 (operands 0x100 0x100 0x100 0 0 (start (blockBytes pointY) 0))) 0x100 16
      = some (blockBytes 0xa569901bb4b18906f5059d24465c904d) := by decide +kernel
theorem test_ghash_partial_block :
    bytesAfter (run 0x12 ((start (blockBytes keyK ++ [0x01]) 17).withMem 0x180 (blockBytes pointY))) 0x200 16
      = some (blockBytes 0xb7df925cadcc98f6a905ffaa7941f3eb) := by decide +kernel
theorem test_ghash_empty :
    bytesAfter (run 0x12 ((start [] 0).withMem 0x200 (blockBytes keyK))) 0x200 16 = some (blockBytes 0) := by
  decide +kernel
theorem test_gcmSetKey_subkey :
    (next? (run 0x21 (start (blockBytes keyK) 0))).map (fun t => (t.session.h, t.session.rk.toList))
      = some (0x2677f46b09c122cc975533105bd4a22a, scheduleK) := by decide +kernel
theorem test_gcmSetIv :
    (next? (run 0x22 (start iv12 12))).map (fun t => (t.session.iv, t.session.ivSet)) = some (iv12, true) := by
  decide +kernel
theorem test_gcmSetIv_empty :
    (next? (run 0x22 (start [] 0))).map (fun t => t.session.ivSet) = some true ∧
    (next? (run 0x22 { start [] 0 with params := { Params.default with emptyIvCountsAsSet := false } })).map
      (fun t => t.session.ivSet) = some false := by decide +kernel
theorem test_gcmSetAad :
    (next? (run 0x23 (start aad20 20))).map (fun t => t.session.aad) = some aad20 := by decide +kernel
theorem test_gcmSetAad_capacity :
    refusal? (run 0x23 { start [] 20 with params := { Params.default with maxAadBytes := 19 } })
      = some .aadCapacity := by decide +kernel
/-- V17, DOC. -/
theorem test_gcmEnc_ciphertext_and_tag :
    (next? (run 0x1024 (withSession iv12 aad20 (start p64 64)))).map
        (fun t => (t.mem.readBytes 0x200 64, t.mem.readBytes 0x300 17, t.idleStatus))
      = some (c64, blockBytes 0xfde2d4fb0c46301f920231f295b08a7c ++ [0], 0x00000062) := by decide +kernel
/-- V20, NIST, t = 12: the byte after the tag is not written. -/
theorem test_gcmEnc_nist_short_tag :
    bytesAfter (run 0x0C24 (nist (withSession iv12 aad20 (start p64 64)))) 0x300 13
      = some ((blockBytes 0x83de3541e4c2b58177e065a9bf7b62ec).take 12 ++ [0]) := by decide +kernel
/-- V16, n = 17. -/
theorem test_gcmDec_verified :
    (next? (run 0x1025 ((withSession iv12 aad20 (start (c64.take 17) 17)).withMem 0x300
        (blockBytes 0x06cb977fec80802960dbe3f22d8f39f7)))).map
        (fun t => (t.mem.readBytes 0x200 18, t.idleStatus))
      = some (p64.take 17 ++ [0], 0x00000062) := by decide +kernel
/-- V21: C[0] 17 becomes 16. -/
theorem test_gcmDec_tampered :
    (next? (run 0x1025 ((withSession iv12 aad20 (start (0x16 :: (c64.take 17).tail) 17)).withMem 0x300
        (blockBytes 0x06cb977fec80802960dbe3f22d8f39f7)))).map
        (fun t => (t.mem.readBytes 0x200 17, t.idleStatus))
      = some (zeroBytes 17, 0x0000006A) := by decide +kernel
theorem test_gcmClear_empty :
    (next? (run 0x26 (withSession iv12 aad20 State.reset))).map (fun t => (t.session, t.idleStatus))
      = some (GcmSession.cleared, 0x00000002) := by decide +kernel
theorem test_gcmClear_zeroFill :
    (next? (run 0x26 { withSession iv12 aad20 State.reset with
        params := { Params.default with clearIvMode := .zeroFill } })).map
        (fun t => (t.session.iv, t.session.aad, t.session.ivSet, t.session.h))
      = some (zeroBytes 12, zeroBytes 20, true, 0) := by decide +kernel
/-- V23. -/
theorem test_gcmEnc_without_iv_checks_no_range :
    (next? (run 0x1024 (operands 0xFFFFFFF0 0 0 0x100 0 State.reset))).map State.idleStatus = some 0x00000006 := by
  decide +kernel

/-! ### The host's side, one step each -/

theorem test_backendSel_keeps_two_bits :
    (next? (step (hostDoes (.write 0x1C 4 0xFFFFFFFE) State.reset))).map (fun t => t.regs.backend) = some 2 := by
  decide +kernel
theorem test_unaligned_register_write_is_refused :
    refusal? (step (hostDoes (.write 0x0A 4 1) State.reset)) = some .badRegisterAccess := by decide +kernel
theorem test_cmd_write_starts_command :
    (next? (step (hostDoes (.write 0x00 4 0x03) (keyed (start [] 0))))).map (fun t => (t.busy, t.ownedOut))
      = some (true, [⟨0x200, 16⟩]) := by decide +kernel
theorem test_reserved_cmd_write_is_refused :
    refusal? (step (hostDoes (.write 0x00 4 0x00001124) State.reset)) = some .reservedEncoding := by decide +kernel
theorem test_cmd_reads_zero :
    (next? (step (hostDoes (.read 0x00 4) (start [] 0)))).map (fun t => t.resp) = some (some (.word 0)) := by
  decide +kernel
theorem test_reset_samples_cap :
    statusAfter (step (hostDoes (.reset true) (keyed (start [] 0)))) = some 0x00000080 := by decide +kernel
theorem test_host_write_outside_memory_faults :
    step (hostDoes (.memWrite 4 [1]) { State.reset with params := { Params.default with memSize := 4 } })
      = .fault .hostAddressAbsent := by rfl
theorem test_pseudo_expansion :
    Pseudo.expand Params.default (.gcmEnc 0x080 0x040 64 0x0C0 16)
      = [.write 0x08 4 0x40, .write 0x10 4 0x80, .write 0x14 4 0x40, .write 0x18 4 0xC0, .write 0x00 4 0x1024,
         .wait] := by decide

/-! ### Witnesses: for each obligation with hypotheses, a concrete state that meets all of them -/

/-- Operands clear of each other, the cipher context and the session keyed with K, an IV, an AAD, and five bytes
to work on; LEN = 5. -/
def ready : State := keyed (withSession iv12 aad20 (start [0x11, 0x22, 0x33, 0x44, 0x55] 5))

/-- `ready` without an IV. -/
def noIv : State := { ready with session := { ready.session with iv := [], ivSet := false } }

/-- `ready` with one byte of V16's ciphertext and its tag in memory. -/
def received : State :=
  (withSession iv12 aad20 (start [0x17] 1)).withMem 0x300 (blockBytes 0x906fe275a3ad8f06839b5ee2d9329f12)

/-- `ready` with a command in flight for `turns` more host turns. -/
def inFlight (w : Word) (i : Instr) (turns : Nat) : State :=
  { ready with busyFor := [turns] }.acceptCommand w i

/-- The host's next access is the one it is made to do. -/
theorem hostDoes_moves_idle (s : State) (op : HostOp) (h : s.core = .idle) : HostMoves (hostDoes op s) op [] :=
  ⟨rfl, fun f hf => by simp [hostDoes, h] at hf⟩

theorem hostDoes_moves_busy (w : Word) (i : Instr) (op : HostOp) (n : Nat) :
    HostMoves (hostDoes op (inFlight w i (n + 1))) op [] := by
  refine ⟨rfl, fun f hf => ?_⟩
  have : f = ⟨w, ready.regs, n + 1⟩ := by
    simpa [hostDoes, inFlight, State.acceptCommand, State.own, State.latchCommand, eq_comm] using hf
  simp [this]

/-- A command that nothing refuses goes on. -/
theorem goes_on {i : Instr} {s : State} (h : s.commandRefusal i = none) : ∃ t, exec i s = .next t :=
  ⟨_, exec_of_none h⟩

/-- Every command goes on from `ready`. -/
theorem ready_refuses_nothing :
    ∀ i ∈ [Instr.ksExpand, .sm4SetKey, .sm4Enc, .sm4Dec, .sm4EncBlocks, .sm4DecBlocks, .sm4Clear, .gfMul, .ghash,
        .gcmSetKey, .gcmSetIv, .gcmSetAad, .gcmEnc 16, .gcmDec 16, .gcmClear],
      ready.commandRefusal i = none := by decide +kernel

theorem ready_memory_wf : ready.mem.wf := by decide +kernel

theorem witness_DecodeInvertsEncode : (Instr.gcmDec 16).wf = true ∧ encode (.gcmDec 16) = 0x1025 := by decide

/-- A reserved word for each of the five conditions, and a legal one. -/
theorem witness_ReservedEncodingRefused :
    ∀ w ∈ [(0x80000003 : Word), 0x00000043, 0x00000027, 0x00001124, 0x00000103, 0x00001024],
      (hostDoes (.write ready.params.regBase 4 w) ready).core = .idle ∧
      HostMoves (hostDoes (.write ready.params.regBase 4 w) ready) (.write ready.params.regBase 4 w) [] :=
  fun _ _ => ⟨rfl, hostDoes_moves_idle _ _ rfl⟩

theorem witness_MnemonicsWriteTheirCommand :
    (Pseudo.gfMul 1 2 3, [(0x08, (2 : Word)), (0x0C, 3), (0x10, 1)], (0x00000011 : Word), Instr.gfMul) ∈
      [(Pseudo.sm4Clear, [], 0x00000007, Instr.sm4Clear),
        (.gfMul 1 2 3, [(0x08, 2), (0x0C, 3), (0x10, 1)], 0x00000011, .gfMul)] := by decide

theorem witness_StepRunsTheLatchedCommand :
    (inFlight 0x1024 (.gcmEnc 16) 0).core = .busy ⟨0x1024, ready.regs, 0⟩ ∧
    decode 0x1024 = .ok (.gcmEnc 16) := ⟨rfl, by decide⟩

theorem witness_AcceptedWriteStartsTheCommand :
    (hostDoes (.write ready.params.regBase 4 0x03) ready).core = .idle ∧
    HostMoves (hostDoes (.write ready.params.regBase 4 0x03) ready) (.write ready.params.regBase 4 0x03) [] ∧
    decode 0x03 = .ok .sm4Enc ∧ ready.commandRefusal .sm4Enc = none :=
  ⟨rfl, hostDoes_moves_idle _ _ rfl, by decide, ready_refuses_nothing _ (by decide)⟩

theorem witness_KeyExpandCommandWritesSchedule :
    ready.mem.wf ∧ InMemory ready ready.operands.src.toNat 16 ∧ InMemory ready ready.operands.dst.toNat 128 ∧
    Apart ready.operands.dst.toNat 128 ready.operands.src.toNat 16 := by decide +kernel

/-- The key ends at the last byte of memory. -/
theorem witness_SetKeyLoadsCipherContext_GcmSetKeyDerivesSubkey :
    InMemory { ready with params := { ready.params with memSize := 0x110 } }
      { ready with params := { ready.params with memSize := 0x110 } }.operands.src.toNat 16 := by decide +kernel

/-- In place and apart. -/
theorem witness_SingleBlockCommandsCrypt :
    (ready.mem.wf ∧ InMemory ready ready.operands.src.toNat 16 ∧ InMemory ready ready.operands.dst.toNat 16 ∧
      InPlaceOrApart ready.operands.dst.toNat 16 ready.operands.src.toNat 16) ∧
    InMemory State.reset State.reset.operands.src.toNat 16 ∧
    InPlaceOrApart State.reset.operands.dst.toNat 16 State.reset.operands.src.toNat 16 := by decide +kernel

/-- Five blocks apart, and no block at all in place at address 0. -/
theorem witness_BlockCommandsCryptEachBlock :
    ∀ s ∈ [ready, State.reset],
      s.mem.wf ∧ s.operands.len.toNat < 2 ^ 28 ∧
      InMemory s s.operands.src.toNat (16 * s.operands.len.toNat) ∧
      InMemory s s.operands.dst.toNat (16 * s.operands.len.toNat) ∧
      InPlaceOrApart s.operands.dst.toNat (16 * s.operands.len.toNat)
        s.operands.src.toNat (16 * s.operands.len.toNat) := by decide +kernel

/-- The window of R164 and the schedule of V2. -/
theorem witness_KeyScheduleRecurrence :
    let K : Nat → Word := fun n =>
      ([0xA292FFA1, 0xDF01FEBF, 0x99A12B0F, 0xC42410CC] ++ scheduleK).getD n 0
    K 0 = keyK.extractLsb' 96 32 ^^^ 0xA3B1BAC6 ∧ K 1 = keyK.extractLsb' 64 32 ^^^ 0x56AA3350 ∧
    K 2 = keyK.extractLsb' 32 32 ^^^ 0x677D9197 ∧ K 3 = keyK.extractLsb' 0 32 ^^^ 0xB27022DC ∧
    ∀ i, i < 32 → K (i + 4) = K i ^^^ tKey (K (i + 1) ^^^ K (i + 2) ^^^ K (i + 3) ^^^ ck.getD i 0) := by
  decide +kernel

/-- The trace of V1. -/
theorem witness_RoundRecurrence :
    let X : Nat → Word := fun n => traceK.getD n 0
    X 0 = keyK.extractLsb' 96 32 ∧ X 1 = keyK.extractLsb' 64 32 ∧ X 2 = keyK.extractLsb' 32 32 ∧
    X 3 = keyK.extractLsb' 0 32 ∧
    ∀ i, i < 32 → X (i + 4) = X i ^^^ tRound (X (i + 1) ^^^ X (i + 2) ^^^ X (i + 3) ^^^
      (keyExpand keyK).toList.getD i 0) := by decide +kernel

/-- `ready` after its SM4_ENC, with SRC at the output and DST elsewhere. -/
def encrypted : State := operands 0x200 0 0x400 0 0 (commandEffect .sm4Enc ready)

theorem witness_BlockRoundTrip :
    ready.mem.wf ∧ encrypted.mem.wf ∧ exec .sm4Enc ready = .next (commandEffect .sm4Enc ready) ∧
    encrypted.cipher.rk = (commandEffect .sm4Enc ready).cipher.rk ∧
    encrypted.mem.readBytes encrypted.operands.src.toNat 16
      = (commandEffect .sm4Enc ready).mem.readBytes ready.operands.dst.toNat 16 ∧
    InMemory encrypted encrypted.operands.src.toNat 16 ∧ InMemory encrypted encrypted.operands.dst.toNat 16 ∧
    InPlaceOrApart encrypted.operands.dst.toNat 16 encrypted.operands.src.toNat 16 :=
  ⟨ready_memory_wf, by decide +kernel, exec_of_none (ready_refuses_nothing _ (by decide)), rfl, rfl,
    by decide +kernel, by decide +kernel, by decide +kernel⟩

theorem witness_GfMulCommandWritesProduct :
    ready.mem.wf ∧ InMemory ready ready.operands.src.toNat 16 ∧ InMemory ready ready.operands.src2.toNat 16 ∧
    InMemory ready ready.operands.dst.toNat 16 ∧
    InPlaceOrApart ready.operands.dst.toNat 16 ready.operands.src.toNat 16 ∧
    InPlaceOrApart ready.operands.dst.toNat 16 ready.operands.src2.toNat 16 := by decide +kernel

/-- Five bytes apart, and no byte with the subkey in place at address 0. -/
theorem witness_GhashCommandWritesHash :
    ∀ s ∈ [ready, State.reset],
      s.mem.wf ∧ InMemory s s.operands.src.toNat s.operands.len.toNat ∧ InMemory s s.operands.src2.toNat 16 ∧
      InMemory s s.operands.dst.toNat 16 ∧
      InPlaceOrApart s.operands.dst.toNat 16 s.operands.src.toNat s.operands.len.toNat ∧
      InPlaceOrApart s.operands.dst.toNat 16 s.operands.src2.toNat 16 := by decide +kernel

/-- An IV and an AAD of exactly the capacity, and an empty one. -/
theorem witness_GcmSetIvReplacesIv_GcmSetAadReplacesAad :
    ∀ s ∈ [{ ready with params := { ready.params with maxIvBytes := 5, maxAadBytes := 5 } }, State.reset],
      s.operands.len.toNat ≤ s.params.maxIvBytes ∧ s.operands.len.toNat ≤ s.params.maxAadBytes ∧
      InMemory s s.operands.src.toNat s.operands.len.toNat := by decide +kernel

theorem witness_GcmClearZeroesSession :
    ready.params.clearIvMode = .empty ∧
    { ready with params := { ready.params with clearIvMode := .zeroFill } }.params.clearIvMode = .zeroFill :=
  ⟨rfl, rfl⟩

theorem witness_GcmEncWritesCiphertextAndTag :
    ready.mem.wf ∧ (16 : BitVec 5).toNat ≤ 16 ∧ ready.session.ivSet = true ∧
    InMemory ready ready.operands.src.toNat ready.operands.len.toNat ∧
    InMemory ready ready.operands.dst.toNat ready.operands.len.toNat ∧
    InMemory ready ready.operands.tag.toNat (16 : BitVec 5).toNat ∧
    InPlaceOrApart ready.operands.dst.toNat ready.operands.len.toNat
      ready.operands.src.toNat ready.operands.len.toNat ∧
    Apart ready.operands.tag.toNat (16 : BitVec 5).toNat ready.operands.src.toNat ready.operands.len.toNat ∧
    Apart ready.operands.tag.toNat (16 : BitVec 5).toNat ready.operands.dst.toNat ready.operands.len.toNat := by
  decide +kernel

/-- The ranges of a GCM_DEC with a 16-byte tag are legal in `received`. -/
theorem received_ranges :
    received.mem.wf ∧ (16 : BitVec 5).toNat ≤ 16 ∧ received.session.ivSet = true ∧
    InMemory received received.operands.src.toNat received.operands.len.toNat ∧
    InMemory received received.operands.dst.toNat received.operands.len.toNat ∧
    InMemory received received.operands.tag.toNat (16 : BitVec 5).toNat ∧
    InPlaceOrApart received.operands.dst.toNat received.operands.len.toNat
      received.operands.src.toNat received.operands.len.toNat ∧
    Apart received.operands.tag.toNat (16 : BitVec 5).toNat
      received.operands.dst.toNat received.operands.len.toNat := by decide +kernel

/-- With `received_ranges`: the tag of V16 for n = 1 is the one the rules give. -/
theorem witness_GcmDecVerifiedWritesPlaintext :
    received.mem.readBytes received.operands.tag.toNat (16 : BitVec 5).toNat =
      (blockBytes (ghash received.session.h
          (authInput received.params.authLayout received.session.aad
            (received.mem.readBytes received.operands.src.toNat received.operands.len.toNat))
        ^^^ sm4Crypt received.session.rk .enc (received.session.j0 received.params))).take
          (16 : BitVec 5).toNat := by decide +kernel

/-- With `received_ranges`, which do not depend on what memory holds: the tag buffer holds zeros. -/
theorem witness_WrongTagRaisesAuthFail :
    let s := { received with mem := [] }
    s.mem.readBytes s.operands.tag.toNat (16 : BitVec 5).toNat ≠
      (blockBytes (ghash s.session.h
          (authInput s.params.authLayout s.session.aad
            (s.mem.readBytes s.operands.src.toNat s.operands.len.toNat))
        ^^^ sm4Crypt s.session.rk .enc (s.session.j0 s.params))).take (16 : BitVec 5).toNat ∧
    InMemory s s.operands.src.toNat s.operands.len.toNat ∧
    InMemory s s.operands.dst.toNat s.operands.len.toNat ∧
    InMemory s s.operands.tag.toNat (16 : BitVec 5).toNat ∧
    InPlaceOrApart s.operands.dst.toNat s.operands.len.toNat s.operands.src.toNat s.operands.len.toNat ∧
    Apart s.operands.tag.toNat (16 : BitVec 5).toNat s.operands.dst.toNat s.operands.len.toNat ∧
    s.session.ivSet = true := by decide +kernel

theorem witness_NoIvRaisesInvalidState :
    (0 : BitVec 5).toNat ≤ 16 ∧ (16 : BitVec 5).toNat ≤ 16 ∧ noIv.session.ivSet = false ∧
    (HostMoves (hostDoes (.reset false) ready) (.reset false) [] ∧
      ∃ t, step (hostDoes (.reset false) ready) = .next t) ∧
    (ready.params.clearIvMode = .empty ∧ ∃ t, exec .gcmClear ready = .next t) ∧
    let s := { State.reset with params := { Params.default with emptyIvCountsAsSet := false } }
    s.operands.len = 0 ∧ ∃ t, exec .gcmSetIv s = .next t :=
  ⟨by decide, by decide, rfl,
    ⟨hostDoes_moves_idle _ _ rfl, ⟨_, step_hostMoves (hostDoes_moves_idle _ _ rfl)⟩⟩,
    ⟨rfl, goes_on (ready_refuses_nothing _ (by decide))⟩, rfl, goes_on (by decide +kernel)⟩

theorem witness_SessionPersists :
    (∃ t, exec (.gcmEnc 16) ready = .next t) ∧ ∃ t, exec (.gcmDec 16) noIv = .next t :=
  ⟨goes_on (ready_refuses_nothing _ (by decide)), goes_on (by decide +kernel)⟩

/-- `ready` after its GCM_ENC with a 16-byte tag, with SRC at the ciphertext and DST elsewhere. -/
def sealed : State := operands 0x200 0 0x400 5 0x300 (commandEffect (.gcmEnc 16) ready)

theorem witness_AeadRoundTrip :
    ready.mem.wf ∧ sealed.mem.wf ∧ ready.session.ivSet = true ∧
    exec (.gcmEnc 16) ready = .next (commandEffect (.gcmEnc 16) ready) ∧
    sealed.params = (commandEffect (.gcmEnc 16) ready).params ∧
    sealed.session = (commandEffect (.gcmEnc 16) ready).session ∧
    sealed.operands.len = ready.operands.len ∧
    sealed.mem.readBytes sealed.operands.src.toNat ready.operands.len.toNat
      = (commandEffect (.gcmEnc 16) ready).mem.readBytes ready.operands.dst.toNat ready.operands.len.toNat ∧
    sealed.mem.readBytes sealed.operands.tag.toNat (16 : BitVec 5).toNat
      = (commandEffect (.gcmEnc 16) ready).mem.readBytes ready.operands.tag.toNat (16 : BitVec 5).toNat ∧
    OverlapLegal (commandRanges (.gcmDec 16) sealed.operands) ∧ TagClear (.gcmDec 16) sealed ∧
    AllInMemory sealed (commandRanges (.gcmDec 16) sealed.operands) :=
  have h := ranges_of_commandRefusal (i := .gcmDec 16) (s := sealed) (by decide +kernel) (fun _ _ => by decide +kernel)
  ⟨ready_memory_wf, by decide +kernel, rfl, exec_of_none (ready_refuses_nothing _ (by decide)), rfl, rfl, rfl,
    rfl, rfl, h.2⟩

theorem witness_TagIsPrefixOfFullTag : 0 ≤ 16 ∧ 12 ≤ 16 ∧ 16 ≤ 16 := by decide

theorem witness_AuthLayoutsAgreeOnFullBlocks :
    (blockBytes keyK).length % 16 = 0 ∧ ([] : List Byte).length % 16 = 0 := by decide

theorem witness_SetKeyAndSetIvCommute :
    ready.core = .idle ∧ InMemory ready (0x100 : Word).toNat 16 ∧
    InMemory ready (0x110 : Word).toNat (12 : Word).toNat ∧
    (12 : Word).toNat ≤ ready.params.maxIvBytes := by decide +kernel

/-- A state `ReachesRangeChecks` holds of with any command that is well-formed, for short operands. -/
theorem reaches_of_ready (i : Instr) (hi : i.wf = true) (s : State) (hv : s.session.ivSet = true)
    (hc : s.operands.len.toNat ≤ s.params.maxIvBytes ∧ s.operands.len.toNat ≤ s.params.maxAadBytes) :
    ReachesRangeChecks i s :=
  ⟨hi, fun _ _ => hv, fun _ => hc.1, fun _ => hc.2⟩

/-- R80: DST 16 bytes above SRC with 32 bytes each; R247: the tag buffer on the plaintext. -/
theorem witness_IllegalOverlapRefused :
    (ReachesRangeChecks .sm4EncBlocks (operands 0x100 0 0x110 2 0 ready) ∧
      BlockCountLegal .sm4EncBlocks (operands 0x100 0 0x110 2 0 ready) ∧
      ¬ OverlapLegal (commandRanges .sm4EncBlocks (operands 0x100 0 0x110 2 0 ready).operands)) ∧
    ReachesRangeChecks (.gcmEnc 16) (operands 0x100 0 0x200 16 0x100 ready) ∧
    BlockCountLegal (.gcmEnc 16) (operands 0x100 0 0x200 16 0x100 ready) ∧
    ¬ TagClear (.gcmEnc 16) (operands 0x100 0 0x200 16 0x100 ready) := by
  refine ⟨⟨reaches_of_ready _ rfl _ rfl (by decide +kernel), by unfold BlockCountLegal; decide +kernel,
    by unfold OverlapLegal; decide +kernel⟩, reaches_of_ready _ (by decide) _ rfl (by decide +kernel),
    by simp [BlockCountLegal], ?_⟩
  rw [← tagRangeLegal_iff]
  decide +kernel

/-- A key whose last byte is past memory; 2^28 blocks. -/
theorem witness_OutOfRangeRefused :
    let s := { ready with params := { ready.params with memSize := 0x10F } }
    (ReachesRangeChecks .sm4SetKey s ∧ OverlapLegal (commandRanges .sm4SetKey s.operands) ∧
      TagClear .sm4SetKey s ∧
      ∃ r ∈ (commandRanges .sm4SetKey s.operands).inputs ++ (commandRanges .sm4SetKey s.operands).outputs,
        r.len ≠ 0 ∧ s.params.memSize < r.addr + r.len) ∧
    ReachesRangeChecks .sm4EncBlocks (operands 0 0 0 0x10000000 0 ready) ∧
    ¬ BlockCountLegal .sm4EncBlocks (operands 0 0 0 0x10000000 0 ready) := by
  refine ⟨⟨reaches_of_ready _ rfl _ rfl (by decide +kernel), by unfold OverlapLegal; decide +kernel, by simp [TagClear],
    by decide +kernel⟩, reaches_of_ready _ rfl _ rfl (by decide +kernel), by unfold BlockCountLegal; decide +kernel⟩

/-- One byte more than the capacity. -/
theorem witness_CapacityRefused :
    let s := { ready with params := { ready.params with maxIvBytes := 4, maxAadBytes := 4 } }
    s.params.maxIvBytes < s.operands.len.toNat ∧ s.params.maxAadBytes < s.operands.len.toNat := by decide +kernel

/-- The three outcomes: no error, INVALID_STATE, AUTH_FAIL. -/
theorem witness_CommandOutcomes :
    (commandEffect (.gcmDec 16) received).err = .none ∧ (commandEffect (.gcmDec 16) noIv).err = .invalidState ∧
    (commandEffect (.gcmDec 16) { received with mem := [] }).err = .authFail ∧
    received.commandRefusal (.gcmDec 16) = none ∧ noIv.commandRefusal (.gcmDec 16) = none ∧
    { received with mem := [] }.commandRefusal (.gcmDec 16) = none := by decide +kernel

/-- The contexts do change in `witness`' states: SM4_CLEAR and GCM_CLEAR of keyed contexts. -/
theorem witness_CommandsLeaveRegisters_ContextsHaveTheirOwnWriters :
    (∃ t, exec .sm4Clear ready = .next t ∧ t.cipher ≠ ready.cipher) ∧
    ∃ t, exec .gcmClear ready = .next t ∧ t.session ≠ ready.session :=
  ⟨⟨_, exec_of_none (ready_refuses_nothing _ (by decide)), by decide +kernel⟩,
    ⟨_, exec_of_none (ready_refuses_nothing _ (by decide)), by decide +kernel⟩⟩

/-- A command with two output ranges, and one that raises an error. -/
theorem witness_MemoryChangesOnlyInOutputRanges :
    (∃ t, exec (.gcmEnc 16) ready = .next t) ∧ ready.mem.wf ∧
    ∃ t, exec (.gcmEnc 16) noIv = .next t ∧ t.err ≠ .none :=
  ⟨goes_on (ready_refuses_nothing _ (by decide)), ready_memory_wf,
    ⟨_, exec_of_none (by decide +kernel), by decide +kernel⟩⟩

/-- The smallest parameters and the largest memory. -/
theorem witness_ResetSatisfiesTheInvariant :
    { Params.default with memSize := 1, maxIvBytes := 12, maxAadBytes := 0 }.wf = true ∧
    Params.default.wf = true := by decide

/-- `inFlight` with an SM4_ENC satisfies the invariant. -/
theorem inFlight_inv (turns : Nat) : (inFlight 0x03 .sm4Enc turns).Inv where
  paramsWf := by show ready.params.wf = true; decide
  memWf := ready_memory_wf
  memInRange := by
    show ∀ c ∈ ready.mem, c.1 < ready.params.memSize
    decide +kernel
  ivFits := by show ready.session.iv.length ≤ ready.params.maxIvBytes; decide +kernel
  aadFits := by show ready.session.aad.length ≤ ready.params.maxAadBytes; decide +kernel
  ivUnset := by intro h; cases h
  cipherUnkeyed := by intro h; cases h
  sessionUnkeyed := by intro h; cases h
  subkey := by
    intro _
    show ready.session.h = sm4Crypt ready.session.rk .enc 0
    decide +kernel
  errNeedsDone := fun _ => rfl
  inFlight := by
    rintro f hf
    have hf : f = ⟨0x03, ready.regs, turns⟩ := by
      simpa [inFlight, State.acceptCommand, State.own, State.latchCommand, eq_comm] using hf
    subst hf
    exact ⟨rfl, rfl, .sm4Enc, show decode 0x03 = .ok .sm4Enc by decide, by
      show ready.commandRefusal .sm4Enc = none
      exact ready_refuses_nothing _ (by decide),
      fun r hr => hr, fun r hr => hr⟩

theorem witness_StepKeepsTheInvariant :
    (inFlight 0x03 .sm4Enc 0).Inv ∧ ∃ t, step (inFlight 0x03 .sm4Enc 0) = .next t :=
  ⟨inFlight_inv 0, goes_on (i := .sm4Enc) (s := inFlight 0x03 .sm4Enc 0)
    (ready_refuses_nothing .sm4Enc (by decide))⟩

/-- The invariant says nothing of the host's accesses to come. -/
theorem hostDoes_inv {s : State} (op : HostOp) (h : s.Inv) : (hostDoes op s).Inv where
  paramsWf := h.paramsWf
  memWf := h.memWf
  memInRange := h.memInRange
  ivFits := h.ivFits
  aadFits := h.aadFits
  ivUnset := h.ivUnset
  cipherUnkeyed := h.cipherUnkeyed
  sessionUnkeyed := h.sessionUnkeyed
  subkey := h.subkey
  errNeedsDone := h.errNeedsDone
  inFlight := h.inFlight

/-- An idle host, and one that polls. -/
theorem witness_EveryCommandCompletes :
    ((inFlight 0x03 .sm4Enc 2).Inv ∧ (inFlight 0x03 .sm4Enc 2).core = .busy ⟨0x03, ready.regs, 2⟩ ∧
      (inFlight 0x03 .sm4Enc 2).host = []) ∧
    (hostDoes .wait (inFlight 0x03 .sm4Enc 2)).Inv ∧
    (hostDoes .wait (inFlight 0x03 .sm4Enc 2)).core = .busy ⟨0x03, ready.regs, 2⟩ ∧
    ∃ rest, (hostDoes .wait (inFlight 0x03 .sm4Enc 2)).host = .wait :: rest :=
  ⟨⟨inFlight_inv 2, rfl, rfl⟩, hostDoes_inv _ (inFlight_inv 2), rfl, [], rfl⟩

theorem witness_OnlyCommandsAndResetChangeContexts :
    (∃ t, step (hostDoes (.reset true) ready) = .next t ∧ t.cap ≠ ready.cap ∧ t.session ≠ ready.session) ∧
    ∃ t, step (inFlight 0x07 .sm4Clear 0) = .next t :=
  ⟨⟨_, step_hostMoves (hostDoes_moves_idle _ _ rfl), by decide +kernel, by decide +kernel⟩,
    goes_on (i := .sm4Clear) (s := inFlight 0x07 .sm4Clear 0) (ready_refuses_nothing .sm4Clear (by decide))⟩

/-- Two states with different keys, and a read of STATUS. -/
theorem witness_HostAccessRevealsNoSecret :
    let s := hostDoes (.read 4 4) ready
    let t := { s with session := { s.session with rk := Schedule.zero, h := 0 } }
    SameButSecrets s t ∧ s ≠ t ∧ HostMoves s (.read 4 4) [] ∧ ∃ u, step s = .next u :=
  ⟨rfl, by decide +kernel, hostDoes_moves_idle _ _ rfl, ⟨_, step_hostMoves (hostDoes_moves_idle _ _ rfl)⟩⟩

theorem witness_StatusReadWhileIdle :
    (hostDoes (.read (ready.params.regBase + 0x04) 4) ready).core = .idle ∧
    HostMoves (hostDoes (.read (ready.params.regBase + 0x04) 4) ready) (.read (ready.params.regBase + 0x04) 4) [] :=
  ⟨rfl, hostDoes_moves_idle _ _ rfl⟩

/-- STATUS and each operand register. -/
theorem witness_ReadsWhileBusy :
    ∀ off ∈ [0x04, 0x08, 0x0C, 0x10, 0x14, 0x18, 0x1C],
      (hostDoes (.read (ready.params.regBase + off) 4) (inFlight 0x03 .sm4Enc 1)).core
        = .busy ⟨0x03, ready.regs, 1⟩ ∧
      HostMoves (hostDoes (.read (ready.params.regBase + off) 4) (inFlight 0x03 .sm4Enc 1))
        (.read (ready.params.regBase + off) 4) [] :=
  fun _ _ => ⟨rfl, hostDoes_moves_busy _ _ _ 0⟩

/-- Each register, and the first and last reserved offset. -/
theorem witness_RegisterWritesWhileIdle :
    ∀ off ∈ [0x04, 0x08, 0x0C, 0x10, 0x14, 0x18, 0x1C, 0x20, 0xFC],
      (hostDoes (.write (ready.params.regBase + off) 4 0xFFFFFFFF) ready).core = .idle ∧
      HostMoves (hostDoes (.write (ready.params.regBase + off) 4 0xFFFFFFFF) ready)
        (.write (ready.params.regBase + off) 4 0xFFFFFFFF) [] :=
  fun _ _ => ⟨rfl, hostDoes_moves_idle _ _ rfl⟩

/-- CMD, each operand register, the first and last reserved offset. -/
theorem witness_RegisterReads :
    ∀ off ∈ [0x00, 0x08, 0x0C, 0x10, 0x14, 0x18, 0x1C, 0x20, 0xFC],
      (off < 256 ∧ off % 4 = 0 ∧ off ≠ 0x04) ∧
      HostMoves (hostDoes (.read (ready.params.regBase + off) 4) ready) (.read (ready.params.regBase + off) 4) [] :=
  fun off h => ⟨by revert off; decide, hostDoes_moves_idle _ _ rfl⟩

/-- Each register, the first and the last reserved offset, written and read. -/
theorem witness_RegisterWriteWhileBusy :
    ∀ off ∈ [0x00, 0x04, 0x08, 0x0C, 0x10, 0x14, 0x18, 0x1C, 0x20, 0xFC],
      (hostDoes (.write (ready.params.regBase + off) 4 0) (inFlight 0x03 .sm4Enc 1)).core
        = .busy ⟨0x03, ready.regs, 1⟩ ∧
      HostMoves (hostDoes (.write (ready.params.regBase + off) 4 0) (inFlight 0x03 .sm4Enc 1))
        (.write (ready.params.regBase + off) 4 0) [] ∧
      HostMoves (hostDoes (.read (ready.params.regBase + off) 4) (inFlight 0x03 .sm4Enc 1))
        (.read (ready.params.regBase + off) 4) [] :=
  fun _ _ => ⟨rfl, hostDoes_moves_busy _ _ _ 0, hostDoes_moves_busy _ _ _ 0⟩

/-- A byte, a halfword and a doubleword access at the window's edges, a misaligned word, and a word that straddles
the start of a window at 0x1000. -/
theorem witness_NonWordRegisterAccessRefused :
    let s := { ready with params := { ready.params with regBase := 0x1000 } }
    ∀ aw ∈ [(0x1000, 1), (0x10FE, 2), (0x10F8, 8), (0x1001, 4), (0xFFE, 4), (0x10FD, 4)],
      (∃ x ∈ List.range' aw.1 aw.2, aw.1 ≤ x ∧ x < aw.1 + aw.2 ∧ s.params.regBase ≤ x ∧
        x < s.params.regBase + 256) ∧
      ¬ (aw.2 = 4 ∧ s.params.regBase ≤ aw.1 ∧ (aw.1 - s.params.regBase) % 4 = 0) ∧
      HostMoves (hostDoes (.read aw.1 aw.2) s) (.read aw.1 aw.2) [] :=
  fun aw h => ⟨by revert aw; decide +kernel, by revert aw; decide +kernel, hostDoes_moves_idle _ _ rfl⟩

/-- While an SM4_ENC from [0x100, 0x110) to [0x200, 0x210) is in flight: writes of the last byte owned and the first
beyond, for the input and the output range; reads likewise, and an empty access. -/
theorem witness_OwnedRangesAreProtected :
    let s := inFlight 0x03 .sm4Enc 1
    (∀ a ∈ [0x10F, 0x20F], InMemory s a 1 ∧ ∃ r ∈ s.ownedIn ++ s.ownedOut, ¬ Apart a 1 r.addr r.len) ∧
    (∀ a ∈ [0x110, 0x210, 0xFF], InMemory s a 1 ∧ ∀ r ∈ s.ownedIn ++ s.ownedOut, Apart a 1 r.addr r.len) ∧
    (∃ r ∈ s.ownedOut, ¬ Apart 0x200 1 r.addr r.len) ∧
    (∀ a ∈ [0x10F, 0x210], ∀ r ∈ s.ownedOut, Apart a 1 r.addr r.len) ∧
    (∀ r ∈ s.ownedOut, Apart 0x200 0 r.addr r.len) ∧ s.mem.wf ∧
    HostMoves (hostDoes (.memWrite 0x110 [1]) s) (.memWrite 0x110 [1]) [] ∧
    HostMoves (hostDoes (.memRead 0x10F 1) s) (.memRead 0x10F 1) [] :=
  ⟨by decide +kernel, by decide +kernel, by decide +kernel, by decide +kernel, by decide +kernel, ready_memory_wf,
    hostDoes_moves_busy _ _ _ 0, hostDoes_moves_busy _ _ _ 0⟩

/-- With either level of `cap_in`, from IDLE. -/
theorem witness_ResetGivesResetValues :
    ∀ c, (hostDoes (.reset c) ready).core = .idle ∧ HostMoves (hostDoes (.reset c) ready) (.reset c) [] :=
  fun _ => ⟨rfl, hostDoes_moves_idle _ _ rfl⟩

theorem witness_ResetDuringCommand :
    (hostDoes (.reset false) (inFlight 0x1024 (.gcmEnc 16) 1)).core = .busy ⟨0x1024, ready.regs, 1⟩ ∧
    decode 0x1024 = .ok (.gcmEnc 16) ∧
    ready.mem.wf ∧
    HostMoves (hostDoes (.reset false) (inFlight 0x1024 (.gcmEnc 16) 1)) (.reset false) [] :=
  ⟨rfl, by decide, ready_memory_wf, hostDoes_moves_busy _ _ _ 0⟩

theorem witness_ResetAndClearAgree :
    (hostDoes (.reset ready.cap) ready).core = .idle ∧ ready.params.clearIvMode = .empty ∧
    HostMoves (hostDoes (.reset ready.cap) ready) (.reset ready.cap) [] :=
  ⟨rfl, rfl, hostDoes_moves_idle _ _ rfl⟩

/-- A full first block, then one byte and a full block: the shortest and the longest. -/
theorem witness_GhashRecurrence :
    (blockBytes keyK).length % 16 = 0 ∧
    ∀ b ∈ [[0x01], blockBytes pointY], 0 < b.length ∧ b.length ≤ 16 := by decide

/-- The three cases: a 12-byte IV, and another length in each expansion. -/
theorem witness_InitialCounterBlock :
    ready.session.iv.length = 12 ∧ noIv.session.iv.length ≠ 12 ∧ noIv.params.ivExpansion = .docPlain ∧
    (nist noIv).session.iv.length ≠ 12 ∧ (nist noIv).params.ivExpansion = .nistLengthBlock := by decide +kernel

/-- The last byte of the first block, the first and the last of a partial second one. -/
theorem witness_CounterModeBytes : ∀ k ∈ [15, 16, 19], k < aad20.length := by decide +kernel

theorem witness_BytesAreBigEndian : 0 < 8 ∧ 7 < 8 ∧ 15 < 16 := by decide

/-- The model's choice (notes/assumptions/23.md): a misaligned write to the window while BUSY. -/
theorem test_misaligned_write_while_busy :
    refusal? (step (hostDoes (.write 0x0A 4 1) (inFlight 0x03 .sm4Enc 1))) = some .badRegisterAccess := by
  decide +kernel

end Sys2Proof.Tests
end

section
/-! SUPPORT. The byte strings of numbers, words and blocks, byte by byte (R14, R17). -/

namespace Sys2Proof.Machine

open Sys2Proof

/-- Byte `k` of a number's encoding counts from the most significant end. -/
theorem natBytes_getD (n v k : Nat) (h : k < n) :
    (natBytes n v).getD k 0 = BitVec.ofNat 8 (v / 256 ^ (n - 1 - k)) := by
  induction n generalizing k with
  | zero => omega
  | succ n ih =>
    cases k with
    | zero => simp [natBytes]
    | succ k =>
      rw [natBytes, List.getD_cons_succ, ih k (by omega)]
      congr 3
      omega

/-- The byte of a number at weight `256 ^ j` is its bits from `8 * j` on. -/
theorem ofNat_div_eq_extractLsb' {w : Nat} (b : BitVec w) (j : Nat) :
    BitVec.ofNat 8 (b.toNat / 256 ^ j) = b.extractLsb' (8 * j) 8 := by
  have hpow : 256 ^ j = 2 ^ (8 * j) := (pow_mul 2 8 j).symm
  rw [hpow, ← Nat.shiftRight_eq_div_pow]
  rfl

theorem bytes32_eq (w : Word) :
    bytes32 w = [w.extractLsb' 24 8, w.extractLsb' 16 8, w.extractLsb' 8 8, w.extractLsb' 0 8] := by
  simp only [bytes32, natBytes, ofNat_div_eq_extractLsb']

theorem blockBytes_getD (b : Block) (k : Nat) (h : k < 16) :
    (blockBytes b).getD k 0 = b.extractLsb' (8 * (15 - k)) 8 := by
  rw [blockBytes, natBytes_getD 16 _ k h, ofNat_div_eq_extractLsb']

end Sys2Proof.Machine
end

section
/-! SUPPORT. The T-tables compute the round transform (R151), so every backend's block function is SM4Crypt. -/

namespace Sys2Proof.Machine

open Sys2Proof

/-- Bit `i` of a rotated word comes from `n` places below, around the end of the word. -/
theorem rotl_getLsbD (w : Word) (n i : Nat) (hn : n ≤ 32) (hi : i < 32) :
    (rotl w n).getLsbD i = if i < n then w.getLsbD (32 - n + i) else w.getLsbD (i - n) := by
  by_cases h : i < n
  · simp [rotl, h]
  · have hout : w.getLsbD (32 - n + i) = false := BitVec.getLsbD_of_ge _ _ (by omega)
    rw [rotl, BitVec.getLsbD_or, BitVec.getLsbD_shiftLeft, BitVec.getLsbD_ushiftRight, hout]
    simp [h, hi]

theorem rotl_xor (a b : Word) (n : Nat) (hn : n ≤ 32) : rotl (a ^^^ b) n = rotl a n ^^^ rotl b n := by
  apply BitVec.eq_of_getLsbD_eq
  intro i hi
  rw [BitVec.getLsbD_xor]
  simp only [rotl_getLsbD _ n i hn hi]
  split_ifs <;> rw [BitVec.getLsbD_xor]

/-- L is linear (R144). -/
theorem linL_xor (a b : Word) : linL (a ^^^ b) = linL a ^^^ linL b := by
  simp only [linL, rotl_xor _ _ _ (show 2 ≤ 32 by decide), rotl_xor _ _ _ (show 10 ≤ 32 by decide),
    rotl_xor _ _ _ (show 18 ≤ 32 by decide), rotl_xor _ _ _ (show 24 ≤ 32 by decide)]
  ac_rfl

/-- A byte placed `k` bits up shows its own bits there and 0 everywhere else. -/
theorem byteAt_getLsbD (x : Byte) (k i : Nat) (hi : i < 32) :
    (x.setWidth 32 <<< k).getLsbD i = if k ≤ i ∧ i < k + 8 then x.getLsbD (i - k) else false := by
  rw [BitVec.getLsbD_shiftLeft, BitVec.getLsbD_setWidth]
  split_ifs with h
  · simp [hi, show ¬ i < k by omega, show i - k < 32 by omega]
  · by_cases hk : i < k
    · simp [hk]
    · simp [BitVec.getLsbD_of_ge x (i - k) (by omega)]

/-- A word is the XOR of its four bytes, each at its place. -/
theorem append_bytes_eq_xor (a b c d : Byte) :
    (a ++ b ++ c ++ d : BitVec 32)
      = a.setWidth 32 <<< 24 ^^^ b.setWidth 32 <<< 16 ^^^ c.setWidth 32 <<< 8 ^^^ d.setWidth 32 <<< 0 := by
  apply BitVec.eq_of_getLsbD_eq
  intro i hi
  simp only [BitVec.getLsbD_append, BitVec.getLsbD_xor, byteAt_getLsbD _ _ i hi, Nat.sub_sub]
  -- which byte holds bit `i` is now linear arithmetic
  grind

theorem tableRound_eq_tRound (w : Word) : tableRound w = tRound w := by
  simp only [tableRound, tTable, tRound, tau, append_bytes_eq_xor, linL_xor]

theorem backendTransform_eq (be : Backend) : backendTransform be = tRound := by
  cases be with
  | table => exact funext tableRound_eq_tRound
  | reference | capScalar | batched => rfl

/-- No result of the block function depends on the backend (R188). -/
theorem engineCrypt_eq (be : Backend) (rk : Schedule) (dir : Direction) (b : Block) :
    engineCrypt be rk dir b = sm4Crypt rk dir b := by
  rw [engineCrypt, sm4Crypt, backendTransform_eq]

@[simp] theorem lockstep_length (keys : List Word) (lanes : List Quad) :
    (lockstep keys lanes).length = lanes.length := by
  induction keys generalizing lanes with
  | nil => rfl
  | cons k keys ih => rw [lockstep, List.foldl_cons, ← lockstep, ih, List.length_map]

@[simp] theorem lockstepBlocks_length (rk : Schedule) (dir : Direction) (bs : List Block) :
    (lockstepBlocks rk dir bs).length = bs.length := by
  simp [lockstepBlocks]

theorem lockstepGroups_length (rk : Schedule) (dir : Direction) (g : Nat) (bs : List Block)
    (h : 4 * g ≤ bs.length) : (lockstepGroups rk dir g bs).length = 4 * g := by
  induction g generalizing bs with
  | zero => rfl
  | succ g ih =>
    rw [lockstepGroups, List.length_append, lockstepBlocks_length, List.length_take,
      ih _ (by rw [List.length_drop]; omega)]
    omega

@[simp] theorem cryptBlocks_length (be : Backend) (cap : Bool) (rk : Schedule) (dir : Direction)
    (bs : List Block) : (cryptBlocks be cap rk dir bs).length = bs.length := by
  unfold cryptBlocks
  split_ifs
  · rw [List.length_append, lockstepGroups_length _ _ _ _ (by omega), List.length_map, List.length_drop]
    omega
  · rw [List.length_map]

@[simp] theorem cryptedBlocks_length (s : State) (dir : Direction) :
    (s.cryptedBlocks dir).length = 16 * s.operands.len.toNat := by
  simp [State.cryptedBlocks]

end Sys2Proof.Machine
end

section
/-! SUPPORT. The invariant taken apart: what it says of data memory, of each context, and of a command in flight.
Every operation is shown to keep each part. -/

namespace Sys2Proof.Machine

open Sys2Proof

/-- The memory is canonical and lists no address at or above `n` (R70). -/
def Memory.Within (m : Memory) (n : Nat) : Prop := m.wf ∧ ∀ c ∈ m, c.1 < n

/-- What the invariant says of the cipher context (R48, R186). -/
def CipherContext.Ok (c : CipherContext) : Prop := c.keyed = false → c.rk = Schedule.zero

/-- What the invariant says of the GCM session (R43, R48, R240, R241, R249). -/
structure GcmSession.Ok (g : GcmSession) (p : Params) : Prop where
  ivFits : g.iv.length ≤ p.maxIvBytes
  aadFits : g.aad.length ≤ p.maxAadBytes
  ivUnset : g.ivSet = false → g.iv = []
  unkeyed : g.keyed = false → g.rk = Schedule.zero ∧ g.h = 0
  subkey : g.keyed = true → g.h = sm4Crypt g.rk .enc 0

/-- What the invariant says of the fields that hold data. -/
def State.DataOk (s : State) : Prop :=
  s.params.wf = true ∧ s.mem.Within s.params.memSize ∧ s.cipher.Ok ∧ s.session.Ok s.params

/-- What the invariant says of a command in flight (R52, R82). -/
def State.InFlightOk (s : State) : Prop :=
  ∀ f, s.core = .busy f →
    s.done = false ∧ f.latch = s.regs ∧
      ∃ i, decode f.word = .ok i ∧ s.commandRefusal i = none ∧ s.ownsRangesOf i

/-- The invariant is the sum of its parts. -/
theorem inv_iff (s : State) :
    s.Inv ↔ s.DataOk ∧ (s.done = false → s.err = .none) ∧ s.InFlightOk := by
  constructor
  · intro h
    exact ⟨⟨h.paramsWf, ⟨h.memWf, h.memInRange⟩, h.cipherUnkeyed,
      ⟨h.ivFits, h.aadFits, h.ivUnset, h.sessionUnkeyed, h.subkey⟩⟩, h.errNeedsDone, h.inFlight⟩
  · rintro ⟨⟨hp, ⟨hw, hr⟩, hc, hg⟩, he, hf⟩
    exact ⟨hp, hw, hr, hg.ivFits, hg.aadFits, hg.ivUnset, hc, hg.unkeyed, hg.subkey, he, hf⟩

/-- While IDLE there is no command in flight to speak of. -/
theorem inFlightOk_of_idle {s : State} (h : s.core = .idle) : s.InFlightOk := by
  intro f hf
  rw [h] at hf
  cases hf

/-! ### Data memory -/

theorem Memory.within_nil (n : Nat) : Memory.Within [] n := ⟨Memory.wf_nil, by simp⟩

theorem Memory.Within.writeBytes {m : Memory} {n a : Nat} {bs : List Byte} (h : m.Within n)
    (hb : bs.length = 0 ∨ a + bs.length ≤ n) : (m.writeBytes a bs).Within n := by
  obtain ⟨hw, hr⟩ := h
  exact ⟨Memory.wf_writeBytes bs m a hw, Memory.writeBytes_lt bs m a n hr hb⟩

/-- The free values of R333 go only to addresses the data memory has. -/
theorem Memory.Within.scrambleRange {mc : Memory × Nat} {n : Nat} (h : mc.1.Within n) (r : Range) :
    (Machine.scrambleRange n mc r).1.Within n :=
  h.writeBytes (by rw [List.length_take]; omega)

theorem Memory.Within.scrambleRanges {n : Nat} (rs : List Range) {mc : Memory × Nat} (h : mc.1.Within n) :
    (rs.foldl (Machine.scrambleRange n) mc).1.Within n := by
  induction rs generalizing mc with
  | nil => exact h
  | cons r rs ih => exact ih (h.scrambleRange r)

/-! ### The contexts -/

theorem CipherContext.ok_cleared : CipherContext.cleared.Ok := fun _ => rfl

theorem GcmSession.ok_cleared (p : Params) : GcmSession.cleared.Ok p where
  ivFits := Nat.zero_le _
  aadFits := Nat.zero_le _
  ivUnset _ := rfl
  unkeyed _ := ⟨rfl, rfl⟩
  subkey h := by cases h

/-- The subkey is the new key's under every backend (R188, R240). -/
theorem GcmSession.Ok.withKey {g : GcmSession} {p : Params} (h : g.Ok p) (be : Backend) (key : Block) :
    (g.withKey be key).Ok p where
  ivFits := h.ivFits
  aadFits := h.aadFits
  ivUnset := h.ivUnset
  unkeyed hk := by cases hk
  subkey _ := engineCrypt_eq be _ .enc 0

/-- A new IV may be left unset only when it is empty (R241). -/
theorem GcmSession.Ok.withIv {g : GcmSession} {p : Params} (h : g.Ok p) {iv : List Byte} {ivSet : Bool}
    (hfits : iv.length ≤ p.maxIvBytes) (hset : ivSet = false → iv = []) :
    GcmSession.Ok { g with iv := iv, ivSet := ivSet } p where
  ivFits := hfits
  aadFits := h.aadFits
  ivUnset := hset
  unkeyed := h.unkeyed
  subkey := h.subkey

theorem GcmSession.Ok.withAad {g : GcmSession} {p : Params} (h : g.Ok p) {aad : List Byte}
    (hfits : aad.length ≤ p.maxAadBytes) : GcmSession.Ok { g with aad := aad } p where
  ivFits := h.ivFits
  aadFits := hfits
  ivUnset := h.ivUnset
  unkeyed := h.unkeyed
  subkey := h.subkey

/-- GCM_CLEAR: a zero-filled IV keeps its length, so an unset one stays empty (R249). -/
theorem GcmSession.Ok.clear {g : GcmSession} {p : Params} (h : g.Ok p) (mode : ClearIvMode) :
    (g.clear mode).Ok p := by
  cases mode with
  | empty => exact GcmSession.ok_cleared p
  | zeroFill =>
    exact {
      ivFits := (zeroBytes_length _).trans_le h.ivFits
      aadFits := (zeroBytes_length _).trans_le h.aadFits
      ivUnset := fun hs => by
        show zeroBytes g.iv.length = []
        rw [h.ivUnset hs]
        rfl
      unkeyed := fun _ => ⟨rfl, rfl⟩
      subkey := fun hk => by cases hk }

/-! ### Reset -/

theorem resetWith_inv (p : Params) (c : Bool) (hp : p.wf = true) : (State.resetWith p c).Inv := by
  rw [inv_iff]
  exact ⟨⟨hp, Memory.within_nil _, CipherContext.ok_cleared, GcmSession.ok_cleared p⟩, fun _ => rfl,
    inFlightOk_of_idle rfl⟩

/-- Reset, also of a command in flight (R330, R333). -/
theorem State.Inv.applyReset {s : State} (h : s.Inv) (c : Bool) : (s.applyReset c).Inv := by
  obtain ⟨⟨hp, hm, -, -⟩, -, -⟩ := (inv_iff s).1 h
  rw [inv_iff]
  exact ⟨⟨hp, hm.scrambleRanges s.inFlightOutputs (mc := (s.mem, s.freeCount)), CipherContext.ok_cleared,
    GcmSession.ok_cleared _⟩, fun _ => rfl, inFlightOk_of_idle rfl⟩

/-! ### The core's move -/

theorem State.DataOk.store {s : State} (h : s.DataOk) {a : Nat} {bs : List Byte}
    (hb : InMemory s a bs.length) : (s.store a bs).DataOk := by
  obtain ⟨hp, hm, hc, hg⟩ := h
  exact ⟨hp, hm.writeBytes hb, hc, hg⟩

theorem State.DataOk.withCipher {s : State} (h : s.DataOk) {c : CipherContext} (hc : c.Ok) :
    State.DataOk { s with cipher := c } := by
  obtain ⟨hp, hm, -, hg⟩ := h
  exact ⟨hp, hm, hc, hg⟩

theorem State.DataOk.withSession {s : State} (h : s.DataOk) {g : GcmSession} (hg : g.Ok s.params) :
    State.DataOk { s with session := g } := by
  obtain ⟨hp, hm, hc, -⟩ := h
  exact ⟨hp, hm, hc, hg⟩

/-- Ending a command writes only the status. -/
theorem State.DataOk.finish {s : State} (h : s.DataOk) (e : ErrCode) : (s.finish e).DataOk := h

/-- An output range of a command that is not refused lies in the data memory. -/
theorem output_inMemory {i : Instr} {s : State} {a n : Nat} (hr : s.commandRefusal i = none)
    (hiv : ∀ t, i = .gcmEnc t ∨ i = .gcmDec t → s.session.ivSet = true)
    (ho : ⟨a, n⟩ ∈ (commandRanges i s.operands).outputs) : InMemory s a n := by
  obtain ⟨-, -, -, hm⟩ := ranges_of_commandRefusal hr hiv
  exact hm ⟨a, n⟩ (List.mem_append_right _ ho)

/-- LEN of a GCM_SETIV that is not refused fits the IV buffer (R241). -/
theorem len_le_maxIvBytes {s : State} (hr : s.commandRefusal .gcmSetIv = none) :
    s.operands.len.toNat ≤ s.params.maxIvBytes := by
  obtain ⟨-, -, hlen, -⟩ := reaches_of_commandRefusal hr (by simp)
  exact hlen rfl

/-- LEN of a GCM_SETAAD that is not refused fits the AAD buffer (R242). -/
theorem len_le_maxAadBytes {s : State} (hr : s.commandRefusal .gcmSetAad = none) :
    s.operands.len.toNat ≤ s.params.maxAadBytes := by
  obtain ⟨-, -, -, hlen⟩ := reaches_of_commandRefusal hr (by simp)
  exact hlen rfl

theorem commandEffect_gcmEnc_dataOk {s : State} {t : BitVec 5} (h : s.DataOk)
    (hr : s.commandRefusal (.gcmEnc t) = none) : (commandEffect (.gcmEnc t) s).DataOk := by
  simp only [commandEffect]
  split_ifs with hiv
  · exact h.finish _
  · have ht : t.toNat ≤ 16 := by simpa [Instr.wf] using wf_of_commandRefusal hr
    have hset : ∀ n, Instr.gcmEnc t = .gcmEnc n ∨ Instr.gcmEnc t = .gcmDec n → s.session.ivSet = true :=
      fun _ _ => by simpa using hiv
    refine ((h.store ?_).store ?_).finish _
    · exact output_inMemory hr hset (by simp [commandRanges, State.gcmInput])
    · exact output_inMemory hr hset (by simp [commandRanges, tag_length _ _ _ _ _ ht])

theorem commandEffect_gcmDec_dataOk {s : State} {t : BitVec 5} (h : s.DataOk)
    (hr : s.commandRefusal (.gcmDec t) = none) : (commandEffect (.gcmDec t) s).DataOk := by
  simp only [commandEffect]
  split_ifs with hiv htag
  · exact h.finish _
  · exact h.finish _
  · refine (h.store (output_inMemory hr (fun _ _ => ?_) ?_)).finish _
    · simpa using hiv
    · simp [commandRanges, State.gcmInput]

/-- A command that is not refused stays within the data memory and the contexts' capacities. -/
theorem commandEffect_dataOk {i : Instr} {s : State} (h : s.DataOk) (hr : s.commandRefusal i = none) :
    (commandEffect i s).DataOk := by
  have hsession : s.session.Ok s.params := by obtain ⟨-, -, -, hg⟩ := h; exact hg
  cases i with
  | gcmEnc t => exact commandEffect_gcmEnc_dataOk h hr
  | gcmDec t => exact commandEffect_gcmDec_dataOk h hr
  | ksExpand | sm4Enc | sm4Dec | sm4EncBlocks | sm4DecBlocks | gfMul | ghash =>
    exact (h.store (output_inMemory hr (by simp) (by simp [commandRanges]))).finish _
  | sm4SetKey => exact (h.withCipher fun hk => by cases hk).finish _
  | sm4Clear => exact (h.withCipher CipherContext.ok_cleared).finish _
  | gcmSetKey => exact (h.withSession (hsession.withKey _ _)).finish _
  | gcmSetIv =>
    refine (h.withSession (hsession.withIv ?_ fun hset => ?_)).finish _
    · rw [Memory.readBytes_length]
      exact len_le_maxIvBytes hr
    · have hlen : s.operands.len.toNat = 0 := by
        simp only [Bool.or_eq_false_iff, decide_eq_false_iff_not] at hset
        omega
      rw [hlen]
      rfl
  | gcmSetAad =>
    refine (h.withSession (hsession.withAad ?_)).finish _
    rw [Memory.readBytes_length]
    exact len_le_maxAadBytes hr
  | gcmClear => exact (h.withSession (hsession.clear _)).finish _

/-- Every command ends by recording its outcome in the status (R304). -/
theorem commandEffect_eq_finish (i : Instr) (s : State) : ∃ (u : State) (e : ErrCode),
    commandEffect i s = u.finish e := by
  cases i with
  | gcmEnc t => simp only [commandEffect]; split_ifs <;> exact ⟨_, _, rfl⟩
  | gcmDec t => simp only [commandEffect]; split_ifs <;> exact ⟨_, _, rfl⟩
  | ksExpand | sm4SetKey | sm4Enc | sm4Dec | sm4EncBlocks | sm4DecBlocks | sm4Clear | gfMul | ghash
    | gcmSetKey | gcmSetIv | gcmSetAad | gcmClear => exact ⟨_, _, rfl⟩

@[simp] theorem commandEffect_core (i : Instr) (s : State) : (commandEffect i s).core = .idle := by
  obtain ⟨u, e, h⟩ := commandEffect_eq_finish i s
  rw [h, finish_core]

@[simp] theorem commandEffect_done (i : Instr) (s : State) : (commandEffect i s).done = true := by
  obtain ⟨u, e, h⟩ := commandEffect_eq_finish i s
  rw [h, finish_done]

theorem State.Inv.commandEffect {i : Instr} {s : State} (h : s.Inv) (hr : s.commandRefusal i = none) :
    (commandEffect i s).Inv := by
  obtain ⟨hd, -, -⟩ := (inv_iff s).1 h
  rw [inv_iff]
  exact ⟨commandEffect_dataOk hd hr, by simp, inFlightOk_of_idle (commandEffect_core i s)⟩

/-! ### The host's turn -/

/-- An accepted CMD write clears the status, latches the registers and owns the command's ranges (R52, R82). -/
theorem State.Inv.acceptCommand {s : State} (h : s.Inv) {w : Word} {i : Instr} (hidle : s.core = .idle)
    (hd : decode w = .ok i) (hr : s.commandRefusal i = none) : (s.acceptCommand w i).Inv := by
  obtain ⟨hdata, -, -⟩ := (inv_iff s).1 h
  have hops : (s.acceptCommand w i).operands = s.operands := by
    rw [acceptCommand_operands, operands_of_idle s hidle]
  rw [inv_iff]
  refine ⟨hdata, fun _ => rfl, fun f hf => ?_⟩
  obtain rfl : InFlight.mk w s.regs (s.busyFor.headD 0) = f := CoreState.busy.inj hf
  refine ⟨rfl, rfl, i, hd, ?_, ?_⟩
  · exact (commandRefusal_congr (s := s.acceptCommand w i) (t := s) i rfl rfl hops).trans hr
  · rw [State.ownsRangesOf, hops]
    exact ⟨fun r hr => List.mem_append_right _ hr, fun r hr => List.mem_append_right _ hr⟩

/-- While IDLE the operand registers may take any value (R342). -/
theorem State.Inv.withRegs {s : State} (h : s.Inv) (hidle : s.core = .idle) (r : OperandRegs) :
    State.Inv { s with regs := r } := by
  obtain ⟨hdata, he, -⟩ := (inv_iff s).1 h
  rw [inv_iff]
  exact ⟨hdata, he, inFlightOk_of_idle hidle⟩

/-- The invariant does not speak of the host's side, nor of the free values drawn. -/
theorem State.Inv.withHostSide {s : State} (h : s.Inv) (ops : List HostOp) (r : Option Response) (n : Nat) :
    State.Inv { s with host := ops, resp := r, freeCount := n } :=
  (inv_iff _).2 ((inv_iff s).1 h)

theorem readStatus_of_idle {s : State} (h : s.core = .idle) :
    s.readStatus = { s with resp := some (.word s.idleStatus), ownedIn := [], ownedOut := [] } := by
  simp only [State.readStatus, h]

theorem readStatus_of_busy {s : State} {f : InFlight} (h : s.core = .busy f) :
    s.readStatus = { s with
      resp := some (.word (s.busyStatus (Config.freeStatusBits s.freeCount)))
      freeCount := s.freeCount + 1 } := by
  simp only [State.readStatus, h]

/-- A STATUS read gives the ranges back only while no command is in flight (R82). -/
theorem State.Inv.readStatus {s : State} (h : s.Inv) : s.readStatus.Inv := by
  cases hc : s.core with
  | idle =>
    obtain ⟨hdata, he, -⟩ := (inv_iff s).1 h
    rw [readStatus_of_idle hc, inv_iff]
    exact ⟨hdata, he, inFlightOk_of_idle hc⟩
  | busy f =>
    rw [readStatus_of_busy hc]
    exact h.withHostSide s.host _ _

theorem State.Inv.readReg {s : State} (h : s.Inv) (off : Nat) : (s.readReg off).Inv := by
  unfold State.readReg
  split_ifs
  · exact h.readStatus
  · exact h.withHostSide s.host _ s.freeCount

/-- A store to addresses the data memory has. -/
theorem State.Inv.store {s : State} (h : s.Inv) {a : Nat} {bs : List Byte}
    (hb : InMemory s a bs.length) : (s.store a bs).Inv := by
  obtain ⟨hdata, he, hf⟩ := (inv_iff s).1 h
  rw [inv_iff]
  exact ⟨hdata.store hb, he, hf⟩

theorem afterTurn_of_idle {s : State} (h : s.core = .idle) (rest : List HostOp) :
    afterTurn s rest = { s with host := rest } := by
  simp only [afterTurn, h]

theorem afterTurn_of_busy {s : State} {f : InFlight} (h : s.core = .busy f) (rest : List HostOp) :
    afterTurn s rest = { s with host := rest, core := .busy { f with turns := f.turns - 1 } } := by
  simp only [afterTurn, h]

/-- A host turn that passes keeps the command in flight as it was latched. -/
theorem State.Inv.afterTurn {s : State} (h : s.Inv) (rest : List HostOp) : (afterTurn s rest).Inv := by
  cases hc : s.core with
  | idle =>
    rw [afterTurn_of_idle hc]
    exact h.withHostSide rest s.resp s.freeCount
  | busy f =>
    obtain ⟨hdata, he, hf⟩ := (inv_iff s).1 h
    obtain ⟨hdone, hlatch, i, hdec, href, howns⟩ := hf f hc
    have href' := (afterTurn_commandRefusal s rest i).trans href
    have hops := afterTurn_operands s rest
    rw [afterTurn_of_busy hc] at href' hops ⊢
    rw [inv_iff]
    refine ⟨hdata, he, fun g hg => ?_⟩
    obtain rfl : { f with turns := f.turns - 1 } = g := CoreState.busy.inj hg
    refine ⟨hdone, hlatch, i, hdec, href', ?_⟩
    rw [State.ownsRangesOf, hops]
    exact howns

theorem State.Inv.busWrite {s t : State} (h : s.Inv) {a w : Nat} {v : Word}
    (ht : s.busWrite a w v = .next t) : t.Inv := by
  rcases busWrite_eq_next ht with ⟨-, rfl⟩ | ⟨-, -, ht⟩
  · exact h
  · rcases writeReg_eq_next ht with ⟨hidle, i, hd, hr, rfl⟩ | ⟨hidle, r, rfl⟩ | rfl
    · exact h.acceptCommand ((busy_eq_false s).1 hidle) hd hr
    · exact h.withRegs ((busy_eq_false s).1 hidle) r
    · exact h

theorem State.Inv.busRead {s t : State} (h : s.Inv) {a w : Nat} (ht : s.busRead a w = .next t) : t.Inv := by
  unfold State.busRead at ht
  split_ifs at ht <;> cases ht
  · exact h
  · exact h.readReg _

theorem State.Inv.hostMemWrite {s t : State} (h : s.Inv) {a : Nat} {bs : List Byte}
    (ht : s.hostMemWrite a bs = .next t) : t.Inv := by
  unfold State.hostMemWrite at ht
  split_ifs at ht with hfits
  cases ht
  exact h.store ((Range.fits_iff _ _).1 (by simpa using hfits))

theorem State.Inv.hostMemRead {s t : State} (h : s.Inv) {a n : Nat} (ht : s.hostMemRead a n = .next t) :
    t.Inv := by
  unfold State.hostMemRead at ht
  split_ifs at ht
  cases ht
  exact h.withHostSide s.host _ s.freeCount

/-- Whatever access the host makes. -/
theorem State.Inv.hostOp {s t : State} (h : s.Inv) {op : HostOp} (ht : s.hostOp op = .next t) : t.Inv := by
  cases op with
  | write a w v => exact h.busWrite ht
  | read a w => exact h.busRead ht
  | wait =>
    simp only [State.hostOp, Host.Outcome.next.injEq] at ht
    subst ht
    split_ifs
    · exact h.readStatus.withHostSide _ _ _
    · exact h.readStatus
  | memWrite a bs => exact h.hostMemWrite ht
  | memRead a n => exact h.hostMemRead ht
  | reset c =>
    cases ht
    exact h.applyReset c

end Sys2Proof.Machine
end

section
/-! The statements of spec/00_scope.md, settled. -/

open Sys2Proof Sys2Proof.Machine

/-- Settles O43: the core's move keeps the invariant because the command in flight is not refused, the host's turn
because each of its accesses keeps every part of it. -/
theorem stepKeepsTheInvariant : Obligations.StepKeepsTheInvariant := by
  intro s t h hstep
  rcases step_cases hstep with ⟨f, i, -, -, -, hexec⟩ | ⟨op, rest, -, hop⟩ | ⟨-, -, rfl⟩
  · obtain ⟨hr, rfl⟩ := exec_eq_next.1 hexec
    exact h.commandEffect hr
  · exact (h.afterTurn rest).hostOp hop
  · exact h.afterTurn []

/-- Settles O60, from the value of each byte of a number's encoding. -/
theorem bytesAreBigEndian : Obligations.BytesAreBigEndian :=
  ⟨fun n v k hk => ⟨natBytes_length n v, natBytes_getD n v k hk⟩, bytes32_eq,
    fun b => ⟨blockBytes_length b, blockBytes_getD b⟩, bytesBlock_blockBytes⟩

/-- Settles O42: the reset state lists no memory, both contexts are cleared, and no command is in flight. -/
theorem resetSatisfiesTheInvariant : Obligations.ResetSatisfiesTheInvariant :=
  ⟨resetWith_inv Params.default false (by decide), resetWith_inv⟩

end

section
/-! SUPPORT. The command word: its four fields, the encoder's word field by field, and the decoder's inverse
(R33, R100, R102, R106). -/

namespace Sys2Proof

/-- A word is its four fields (R33). -/
theorem word_eq_append_fields (w : Word) :
    w = highReservedField w ++ tagLenField w ++ lowReservedField w ++ opcodeField w := by
  apply BitVec.eq_of_getLsbD_eq
  intro i hi
  simp only [highReservedField, tagLenField, lowReservedField, opcodeField, BitVec.getLsbD_append,
    BitVec.getLsbD_extractLsb']
  -- which field holds bit `i` is linear arithmetic
  grind

theorem word_eq_of_fields {v w : Word} (ho : opcodeField v = opcodeField w)
    (hl : lowReservedField v = lowReservedField w) (ht : tagLenField v = tagLenField w)
    (hh : highReservedField v = highReservedField w) : v = w := by
  rw [word_eq_append_fields v, word_eq_append_fields w, ho, hl, ht, hh]

/-- The fields of an encoded command (R100). -/
theorem encode_fields (i : Instr) : Laws.EncodedFields.Statement i := by
  cases i with
  | ksExpand => exact Laws.EncodedFields.ksExpand
  | sm4SetKey => exact Laws.EncodedFields.sm4SetKey
  | sm4Enc => exact Laws.EncodedFields.sm4Enc
  | sm4Dec => exact Laws.EncodedFields.sm4Dec
  | sm4EncBlocks => exact Laws.EncodedFields.sm4EncBlocks
  | sm4DecBlocks => exact Laws.EncodedFields.sm4DecBlocks
  | sm4Clear => exact Laws.EncodedFields.sm4Clear
  | gfMul => exact Laws.EncodedFields.gfMul
  | ghash => exact Laws.EncodedFields.ghash
  | gcmSetKey => exact Laws.EncodedFields.gcmSetKey
  | gcmSetIv => exact Laws.EncodedFields.gcmSetIv
  | gcmSetAad => exact Laws.EncodedFields.gcmSetAad
  | gcmEnc t => exact Laws.EncodedFields.gcmEnc t
  | gcmDec t => exact Laws.EncodedFields.gcmDec t
  | gcmClear => exact Laws.EncodedFields.gcmClear

/-- A word encodes a command exactly when its reserved fields are zero and its other two are the command's. -/
theorem encode_eq_iff (i : Instr) (w : Word) :
    encode i = w ↔ highReservedField w = 0 ∧ lowReservedField w = 0 ∧
      opcodeField w = i.opcode ∧ tagLenField w = i.tagLenBits := by
  obtain ⟨ho, ht, hl, hh⟩ := encode_fields i
  constructor
  · rintro rfl
    exact ⟨hh, hl, ho, ht⟩
  · rintro ⟨wh, wl, wo, wt⟩
    exact word_eq_of_fields (ho.trans wo.symm) (hl.trans wl.symm) (ht.trans wt.symm) (hh.trans wh.symm)

theorem withoutTagLen_eq_ok {t : BitVec 5} {i j : Instr} :
    withoutTagLen t j = .ok i ↔ t = 0 ∧ j = i := by
  unfold withoutTagLen
  split_ifs with h
  · simp only [h, true_and, Except.ok.injEq]
  · simp only [h, false_and]

theorem withTagLen_eq_ok {t : BitVec 5} {i j : Instr} :
    withTagLen t j = .ok i ↔ t.toNat ≤ 16 ∧ j = i := by
  unfold withTagLen
  split_ifs with h
  · simp only [h, true_and, Except.ok.injEq]
  · simp only [h, false_and]

/-- `i` is a command the encoding admits, with this OPCODE and TAGLEN (R102). -/
def Instr.HasFields (i : Instr) (op : BitVec 6) (t : BitVec 5) : Prop :=
  i.wf = true ∧ op = i.opcode ∧ t = i.tagLenBits

theorem hasFields_of_withoutTagLen {t : BitVec 5} {i j : Instr} (hwf : j.wf = true)
    (hj : j.tagLenBits = 0) (h : withoutTagLen t j = .ok i) : i.HasFields j.opcode t := by
  obtain ⟨ht, rfl⟩ := withoutTagLen_eq_ok.1 h
  exact ⟨hwf, rfl, ht.trans hj.symm⟩

theorem hasFields_of_withTagLen {t : BitVec 5} {i j : Instr} (hwf : t.toNat ≤ 16 → j.wf = true)
    (hj : j.tagLenBits = t) (h : withTagLen t j = .ok i) : i.HasFields j.opcode t := by
  obtain ⟨ht, rfl⟩ := withTagLen_eq_ok.1 h
  exact ⟨hwf ht, rfl, hj.symm⟩

/-- One row of the opcode map: its opcode `c` matched, or the rows after it answer. -/
theorem hasFields_of_row {op c : BitVec 6} {t : BitVec 5} {i : Instr} {a b : Except DecodeError Instr}
    (h : (if op = c then a else b) = .ok i) (hit : a = .ok i → i.HasFields c t)
    (miss : b = .ok i → i.HasFields op t) : i.HasFields op t := by
  split_ifs at h with hc
  · exact hc ▸ hit h
  · exact miss h

/-- Inversion of the opcode map, row by row: a row that answers is the command's, with its TAGLEN checked
(R106). -/
theorem hasFields_of_decodeOpcode {op : BitVec 6} {t : BitVec 5} {i : Instr}
    (h : decodeOpcode op t = .ok i) : i.HasFields op t := by
  unfold decodeOpcode at h
  iterate 12 refine hasFields_of_row h (hasFields_of_withoutTagLen rfl rfl) fun h => ?_
  iterate 2 refine hasFields_of_row h (hasFields_of_withTagLen decide_eq_true rfl) fun h => ?_
  exact hasFields_of_row h (hasFields_of_withoutTagLen rfl rfl) fun h => by cases h

/-- The opcode map gives a well-formed command its own opcode and TAGLEN back (R102). -/
theorem decodeOpcode_opcode {i : Instr} (h : i.wf = true) :
    decodeOpcode i.opcode i.tagLenBits = .ok i := by
  cases i with
  | gcmEnc t | gcmDec t => exact withTagLen_eq_ok.2 ⟨of_decide_eq_true h, rfl⟩
  | ksExpand | sm4SetKey | sm4Enc | sm4Dec | sm4EncBlocks | sm4DecBlocks | sm4Clear | gfMul | ghash
    | gcmSetKey | gcmSetIv | gcmSetAad | gcmClear => rfl

theorem decodeOpcode_eq_ok {op : BitVec 6} {t : BitVec 5} {i : Instr} :
    decodeOpcode op t = .ok i ↔ i.HasFields op t := by
  constructor
  · exact hasFields_of_decodeOpcode
  · rintro ⟨hwf, rfl, rfl⟩
    exact decodeOpcode_opcode hwf

/-- The decoder answers exactly where both reserved fields are zero and the opcode map does. -/
theorem decode_eq_ok {w : Word} {i : Instr} :
    decode w = .ok i ↔ highReservedField w = 0 ∧ lowReservedField w = 0 ∧
      decodeOpcode (opcodeField w) (tagLenField w) = .ok i := by
  unfold decode
  by_cases hh : highReservedField w = 0
  · by_cases hl : lowReservedField w = 0
    · simp only [hh, hl, ne_eq, not_true_eq_false, if_false, true_and]
    · simp only [hh, hl, ne_eq, not_true_eq_false, not_false_eq_true, if_false, if_true, false_and,
        and_false, reduceCtorEq]
  · simp only [hh, ne_eq, not_false_eq_true, if_true, false_and, reduceCtorEq]

theorem decode_eq_ok_iff_encode (w : Word) (i : Instr) :
    decode w = .ok i ↔ i.wf = true ∧ encode i = w := by
  rw [decode_eq_ok, decodeOpcode_eq_ok, encode_eq_iff, Instr.HasFields]
  tauto

end Sys2Proof
end

section
/-! SUPPORT. What a command changes: which fields it may write, and which commands write each context
(R38, R42, R43, R44). -/

namespace Sys2Proof.Machine

open Sys2Proof

/-- A command writes at most the contexts, data memory and the status. -/
theorem commandEffect_eq_update (i : Instr) (s : State) :
    ∃ (c : CipherContext) (g : GcmSession) (m : Memory) (e : ErrCode), commandEffect i s =
      { s with cipher := c, session := g, mem := m, core := .idle, done := true, err := e } := by
  cases i with
  | gcmEnc t | gcmDec t => simp only [commandEffect]; split_ifs <;> exact ⟨_, _, _, _, rfl⟩
  | ksExpand | sm4SetKey | sm4Enc | sm4Dec | sm4EncBlocks | sm4DecBlocks | sm4Clear | gfMul | ghash
    | gcmSetKey | gcmSetIv | gcmSetAad | gcmClear =>
    -- both sides written out, so that no byte the command computes is evaluated
    simp only [commandEffect, State.finish, State.store]
    exact ⟨_, _, _, _, rfl⟩

@[simp] theorem commandEffect_params (i : Instr) (s : State) : (commandEffect i s).params = s.params := by
  obtain ⟨c, g, m, e, h⟩ := commandEffect_eq_update i s
  rw [h]

@[simp] theorem commandEffect_cap (i : Instr) (s : State) : (commandEffect i s).cap = s.cap := by
  obtain ⟨c, g, m, e, h⟩ := commandEffect_eq_update i s
  rw [h]

/-- RK_C and C_KEYED are written by SM4_SETKEY and SM4_CLEAR alone (R42). -/
theorem commandEffect_cipher {i : Instr} (s : State) (hset : i ≠ .sm4SetKey) (hclear : i ≠ .sm4Clear) :
    (commandEffect i s).cipher = s.cipher := by
  cases i with
  | sm4SetKey | sm4Clear => contradiction
  | gcmEnc t | gcmDec t => simp only [commandEffect]; split_ifs <;> rfl
  | ksExpand | sm4Enc | sm4Dec | sm4EncBlocks | sm4DecBlocks | gfMul | ghash | gcmSetKey | gcmSetIv
    | gcmSetAad | gcmClear => simp only [commandEffect, finish_cipher, store_cipher]

/-- The session is written by the four GCM commands that set or clear it alone (R43). -/
theorem commandEffect_session {i : Instr} (s : State) (hkey : i ≠ .gcmSetKey) (hiv : i ≠ .gcmSetIv)
    (haad : i ≠ .gcmSetAad) (hclear : i ≠ .gcmClear) : (commandEffect i s).session = s.session := by
  cases i with
  | gcmSetKey | gcmSetIv | gcmSetAad | gcmClear => contradiction
  | gcmEnc t | gcmDec t => simp only [commandEffect]; split_ifs <;> rfl
  | ksExpand | sm4SetKey | sm4Enc | sm4Dec | sm4EncBlocks | sm4DecBlocks | sm4Clear | gfMul | ghash =>
    simp only [commandEffect, finish_session, store_session]

/-- SM4_SETKEY has one range to check, its key's (R103, R166). -/
theorem commandRefusal_sm4SetKey {s : State} (h : InMemory s s.operands.src.toNat 16) :
    s.commandRefusal .sm4SetKey = none := by
  apply commandRefusal_eq_none
  · exact ⟨rfl, by simp, by simp, by simp⟩
  · simp [BlockCountLegal]
  · simp [OverlapLegal, commandRanges]
  · simp [TagClear]
  · simpa [AllInMemory, commandRanges] using h

/-- With no host turn left, the core runs the command its latched word encodes (R47, R82). -/
theorem step_of_no_turns {s : State} {f : InFlight} {i : Instr} (hc : s.core = .busy f)
    (ht : f.turns = 0) (hd : decode f.word = .ok i) : step s = exec i s := by
  simp only [step, hc, ht, runInFlight, fetch_of_busy hc hd]

end Sys2Proof.Machine
end

section
/-! SUPPORT. Register accesses: each register's write and read, and the fields of STATUS (R33 to R41, R51). -/

namespace Sys2Proof.Machine

open Sys2Proof

theorem writeReg_cmd_of_idle {s : State} (h : s.core = .idle) (v : Word) :
    s.writeReg offCmd v = s.writeCmd v := by
  rw [State.writeReg, if_pos rfl, busy_of_idle h]
  rfl

/-- What an accepted CMD write leaves behind, the operands being the registers (R47, R52, R82). -/
theorem acceptCommand_of_idle {s : State} (h : s.core = .idle) (w : Word) (i : Instr) :
    s.acceptCommand w i = { s with
      busyFor := s.busyFor.tail
      core := .busy { word := w, latch := s.regs, turns := s.busyFor.headD 0 }
      done := false
      err := .none
      ownedIn := s.ownedIn ++ (commandRanges i s.regs).inputs
      ownedOut := s.ownedOut ++ (commandRanges i s.regs).outputs } := by
  simp only [State.acceptCommand, State.own, State.latchCommand, operands_of_idle s h]

/-- While IDLE a write of operand registers takes effect at once (R342). -/
theorem writeRegs_of_idle {s : State} (h : s.core = .idle) (r : OperandRegs) :
    s.writeRegs r = .next { s with regs := r } := by
  rw [State.writeRegs, busy_of_idle h]
  rfl

/-- A write to STATUS or a reserved offset is ignored, BUSY or not (R34, R41, R340). -/
theorem writeReg_ignored (s : State) (v : Word) {off : Nat} (h : off = offStatus ∨ 0x20 ≤ off) :
    s.writeReg off v = .next s := by
  rcases h with rfl | h
  · rfl
  · unfold State.writeReg offCmd offSrc offSrc2 offDst offLen offTag offBackendSel
    rw [if_neg (by omega), if_neg (by omega), if_neg (by omega), if_neg (by omega), if_neg (by omega),
      if_neg (by omega), if_neg (by omega)]

/-- CMD and the reserved offsets read 0 (R33, R41). -/
theorem regValue_zero (s : State) {off : Nat} (h : off = offCmd ∨ 0x20 ≤ off) : s.regValue off = 0 := by
  rcases h with rfl | h
  · rfl
  · unfold State.regValue offSrc offSrc2 offDst offLen offTag offBackendSel
    rw [if_neg (by omega), if_neg (by omega), if_neg (by omega), if_neg (by omega), if_neg (by omega),
      if_neg (by omega)]

@[simp] theorem afterTurn_regValue (s : State) (rest : List HostOp) (off : Nat) :
    (afterTurn s rest).regValue off = s.regValue off := by
  simp only [State.regValue, afterTurn_regs]

/-- A word read of any register but STATUS answers its value and changes nothing else, BUSY or not. -/
theorem step_readValue {s : State} {off : Nat} {rest : List HostOp} (h : off < 256) (h4 : off % 4 = 0)
    (hne : off ≠ offStatus) (hm : HostMoves s (.read (s.params.regBase + off) 4) rest) :
    step s = .next { afterTurn s rest with resp := some (.word (s.regValue off)) } := by
  rw [step_regRead h h4 hm, State.readReg, if_neg hne, afterTurn_regValue]

/-- The operand registers and BACKEND_SEL answer what they hold (R35 to R40). -/
theorem regValue_of_mem {s : State} {off : Nat} {val : Word}
    (h : (off, val) ∈ [(0x08, s.regs.src), (0x0C, s.regs.src2), (0x10, s.regs.dst), (0x14, s.regs.len),
      (0x18, s.regs.tag), (0x1C, s.regs.backend.setWidth 32)]) :
    off < 256 ∧ off % 4 = 0 ∧ off ≠ offStatus ∧ val = s.regValue off := by
  simp only [List.mem_cons, List.not_mem_nil, or_false, Prod.mk.injEq] at h
  rcases h with ⟨rfl, rfl⟩ | ⟨rfl, rfl⟩ | ⟨rfl, rfl⟩ | ⟨rfl, rfl⟩ | ⟨rfl, rfl⟩ | ⟨rfl, rfl⟩ <;>
    exact ⟨by decide, by decide, by decide, rfl⟩

/-- A STATUS read is made on the state `afterTurn` gives. -/
theorem step_readStatus {s : State} {rest : List HostOp}
    (hm : HostMoves s (.read (s.params.regBase + offStatus) 4) rest) :
    step s = .next (afterTurn s rest).readStatus := by
  rw [step_regRead (by decide) (by decide) hm, State.readReg, if_pos rfl]

/-- BACKEND_SEL reads its bits 1:0 and zeros (R40). -/
theorem regValue_backendSel (s : State) :
    (s.regValue offBackendSel).extractLsb' 0 2 = s.regs.backend ∧
      (s.regValue offBackendSel).extractLsb' 2 30 = 0 := by
  have hv : s.regValue offBackendSel = s.regs.backend.setWidth 32 := rfl
  rw [hv]
  generalize s.regs.backend = b
  revert b
  decide

section StatusFields
variable (cap done busy : Bool) (ctx : BitVec 3) (err : BitVec 2)

/-! The fields of STATUS in their places (R34). -/

theorem statusFields_busy : (statusFields cap ctx err done busy).getLsbD 0 = busy := by
  revert cap done busy ctx err; decide

theorem statusFields_done : (statusFields cap ctx err done busy).getLsbD 1 = done := by
  revert cap done busy ctx err; decide

theorem statusFields_err : (statusFields cap ctx err done busy).extractLsb' 2 2 = err := by
  revert cap done busy ctx err; decide

theorem statusFields_ctx : (statusFields cap ctx err done busy).extractLsb' 4 3 = ctx := by
  revert cap done busy ctx err; decide

theorem statusFields_ctxBit {k : Nat} (hk : k < 3) :
    (statusFields cap ctx err done busy).getLsbD (4 + k) = ctx.getLsbD k := by
  have h := congrArg (·.getLsbD k) (statusFields_ctx cap done busy ctx err)
  simpa [BitVec.getLsbD_extractLsb', hk] using h

theorem statusFields_cap : (statusFields cap ctx err done busy).getLsbD 7 = cap := by
  revert cap done busy ctx err; decide

theorem statusFields_high : (statusFields cap ctx err done busy).extractLsb' 8 24 = 0 := by
  revert cap done busy ctx err; decide

end StatusFields

/-- Bits 6:4 of STATUS while IDLE, from the lowest: C_KEYED, G_KEYED, IV_SET (R34). -/
theorem contextBits_getLsbD (s : State) :
    s.contextBits.getLsbD 0 = s.cipher.keyed ∧ s.contextBits.getLsbD 1 = s.session.keyed ∧
      s.contextBits.getLsbD 2 = s.session.ivSet := by
  unfold State.contextBits
  generalize s.cipher.keyed = c, s.session.keyed = g, s.session.ivSet = iv
  revert c g iv
  decide

end Sys2Proof.Machine
end

section
/-! SUPPORT. What a host turn leaves alone, and what it cannot tell apart (R42, R43, R44, R311). -/

namespace Sys2Proof.Machine

open Sys2Proof

/-- `t` has the parameters, CAP and both contexts of `s`. -/
structure SameContexts (s t : State) : Prop where
  params : t.params = s.params
  cap : t.cap = s.cap
  cipher : t.cipher = s.cipher
  session : t.session = s.session

theorem SameContexts.refl (s : State) : SameContexts s s := ⟨rfl, rfl, rfl, rfl⟩

theorem SameContexts.trans {s t u : State} (h : SameContexts s t) (h' : SameContexts t u) :
    SameContexts s u :=
  ⟨h'.params.trans h.params, h'.cap.trans h.cap, h'.cipher.trans h.cipher, h'.session.trans h.session⟩

@[simp] theorem afterTurn_cap (s : State) (rest : List HostOp) : (afterTurn s rest).cap = s.cap := by
  cases h : s.core <;> simp [afterTurn, h]

theorem afterTurn_sameContexts (s : State) (rest : List HostOp) : SameContexts s (afterTurn s rest) :=
  ⟨afterTurn_params s rest, afterTurn_cap s rest, afterTurn_cipher s rest, afterTurn_session s rest⟩

theorem readStatus_sameContexts (s : State) : SameContexts s s.readStatus := by
  cases hc : s.core with
  | idle => rw [readStatus_of_idle hc]; exact ⟨rfl, rfl, rfl, rfl⟩
  | busy f => rw [readStatus_of_busy hc]; exact ⟨rfl, rfl, rfl, rfl⟩

theorem readReg_sameContexts (s : State) (off : Nat) : SameContexts s (s.readReg off) := by
  unfold State.readReg
  split_ifs
  · exact readStatus_sameContexts s
  · exact ⟨rfl, rfl, rfl, rfl⟩

/-- Writing a register changes no context: an accepted CMD write only latches its command (R47). -/
theorem writeReg_sameContexts {s t : State} {off : Nat} {v : Word} (h : s.writeReg off v = .next t) :
    SameContexts s t := by
  rcases writeReg_eq_next h with ⟨-, i, -, -, rfl⟩ | ⟨-, r, rfl⟩ | rfl
  · exact ⟨rfl, rfl, rfl, rfl⟩
  · exact ⟨rfl, rfl, rfl, rfl⟩
  · exact .refl t

/-- Whatever access the host makes, if it is no reset. -/
theorem hostOp_sameContexts {s t : State} {op : HostOp} (h : s.hostOp op = .next t)
    (hop : ∀ c, op ≠ .reset c) : SameContexts s t := by
  cases op with
  | write a w v =>
    rcases busWrite_eq_next h with ⟨-, rfl⟩ | ⟨-, -, hw⟩
    · exact .refl t
    · exact writeReg_sameContexts hw
  | read a w =>
    simp only [State.hostOp, State.busRead] at h
    split_ifs at h <;> cases h
    · exact .refl s
    · exact readReg_sameContexts s _
  | wait =>
    simp only [State.hostOp, Host.Outcome.next.injEq] at h
    subst h
    split_ifs
    · exact (readStatus_sameContexts s).trans ⟨rfl, rfl, rfl, rfl⟩
    · exact readStatus_sameContexts s
  | memWrite a bs =>
    simp only [State.hostOp, State.hostMemWrite] at h
    split_ifs at h
    cases h
    exact ⟨rfl, rfl, rfl, rfl⟩
  | memRead a n =>
    simp only [State.hostOp, State.hostMemRead] at h
    split_ifs at h
    cases h
    exact ⟨rfl, rfl, rfl, rfl⟩
  | reset c => exact absurd rfl (hop c)

/-- A step that changes CAP or a context completes a command or carries out a reset, and only a reset changes
CAP. -/
theorem step_contexts {s t : State} (h : step s = .next t) :
    SameContexts s t ∨
      (t.params = s.params ∧ t.cap = s.cap ∧ ∃ f, s.core = .busy f ∧ f.turns = 0) ∨
      (t.params = s.params ∧ ∃ c rest, HostMoves s (.reset c) rest ∧ t.cap = c) := by
  rcases step_cases h with ⟨f, i, hc, ht, -, hexec⟩ | ⟨op, rest, hm, hop⟩ | ⟨-, -, rfl⟩
  · obtain ⟨-, rfl⟩ := exec_eq_next.1 hexec
    exact .inr (.inl ⟨commandEffect_params i s, commandEffect_cap i s, f, hc, ht⟩)
  · by_cases hr : ∃ c, op = .reset c
    · obtain ⟨c, rfl⟩ := hr
      cases hop
      exact .inr (.inr ⟨afterTurn_params s rest, c, rest, hm, rfl⟩)
    · exact .inl ((afterTurn_sameContexts s rest).trans (hostOp_sameContexts hop (not_exists.1 hr)))
  · exact .inl (afterTurn_sameContexts s [])

/-! ### What the host cannot read -/

/-- `s` with the key material, the IV and the AAD of `g`. -/
def State.withSecretsOf (s g : State) : State :=
  { s with
    cipher := { s.cipher with rk := g.cipher.rk }
    session := { s.session with
      rk := g.session.rk, h := g.session.h, iv := g.session.iv, aad := g.session.aad } }

theorem sameButSecrets_iff (s t : State) : SameButSecrets s t ↔ t = s.withSecretsOf t := Iff.rfl

theorem sameButSecrets_withSecretsOf (s g : State) : SameButSecrets s (s.withSecretsOf g) := rfl

theorem SameButSecrets.refl (s : State) : SameButSecrets s s := rfl

section WithSecretsOf
variable (s g : State)

@[simp] theorem withSecretsOf_params : (s.withSecretsOf g).params = s.params := rfl
@[simp] theorem withSecretsOf_busy : (s.withSecretsOf g).busy = s.busy := rfl
@[simp] theorem withSecretsOf_ownedIn : (s.withSecretsOf g).ownedIn = s.ownedIn := rfl
@[simp] theorem withSecretsOf_ownedOut : (s.withSecretsOf g).ownedOut = s.ownedOut := rfl

theorem withSecretsOf_commandRefusal (i : Instr) :
    (s.withSecretsOf g).commandRefusal i = s.commandRefusal i :=
  commandRefusal_congr i rfl rfl rfl

theorem withSecretsOf_afterTurn (rest : List HostOp) :
    afterTurn (s.withSecretsOf g) rest = (afterTurn s rest).withSecretsOf g := by
  cases hc : s.core with
  | idle => rw [afterTurn_of_idle hc, afterTurn_of_idle (s := s.withSecretsOf g) hc]; rfl
  | busy f => rw [afterTurn_of_busy hc, afterTurn_of_busy (s := s.withSecretsOf g) hc]; rfl

/-- STATUS shows which contexts are set, never what they hold (R34, R51). -/
theorem withSecretsOf_readStatus : (s.withSecretsOf g).readStatus = s.readStatus.withSecretsOf g := by
  cases hc : s.core with
  | idle => rw [readStatus_of_idle hc, readStatus_of_idle (s := s.withSecretsOf g) hc]; rfl
  | busy f => rw [readStatus_of_busy hc, readStatus_of_busy (s := s.withSecretsOf g) hc]; rfl

theorem withSecretsOf_readReg (off : Nat) :
    (s.withSecretsOf g).readReg off = (s.readReg off).withSecretsOf g := by
  unfold State.readReg
  split_ifs
  · exact withSecretsOf_readStatus s g
  · rfl

theorem withSecretsOf_writeCmd (v : Word) :
    (s.withSecretsOf g).writeCmd v = mapNext (·.withSecretsOf g) (s.writeCmd v) := by
  unfold State.writeCmd
  cases decode v with
  | error e => rfl
  | ok i =>
    simp only [withSecretsOf_commandRefusal]
    cases s.commandRefusal i <;> rfl

theorem withSecretsOf_writeRegs (r : OperandRegs) :
    (s.withSecretsOf g).writeRegs r = mapNext (·.withSecretsOf g) (s.writeRegs r) := by
  unfold State.writeRegs
  rw [withSecretsOf_busy]
  split_ifs <;> rfl

theorem withSecretsOf_writeReg (off : Nat) (v : Word) :
    (s.withSecretsOf g).writeReg off v = mapNext (·.withSecretsOf g) (s.writeReg off v) := by
  unfold State.writeReg
  rw [withSecretsOf_busy]
  split_ifs
  · rfl
  · exact withSecretsOf_writeCmd s g v
  iterate 6 exact withSecretsOf_writeRegs s g _
  · rfl

/-- No host access but a reset looks at the secrets, and each carries them over. -/
theorem withSecretsOf_hostOp {op : HostOp} (hop : ∀ c, op ≠ .reset c) :
    (s.withSecretsOf g).hostOp op = mapNext (·.withSecretsOf g) (s.hostOp op) := by
  cases op with
  | write a w v =>
    simp only [State.hostOp, State.busWrite]
    rw [withSecretsOf_params]
    split_ifs
    · rfl
    · rfl
    · exact withSecretsOf_writeReg s g _ v
  | read a w =>
    simp only [State.hostOp, State.busRead, withSecretsOf_readReg]
    rw [withSecretsOf_params]
    split_ifs <;> rfl
  | wait =>
    simp only [State.hostOp, withSecretsOf_readStatus]
    rw [withSecretsOf_busy]
    split_ifs <;> rfl
  | memWrite a bs =>
    simp only [State.hostOp, State.hostMemWrite]
    rw [withSecretsOf_params, withSecretsOf_ownedIn, withSecretsOf_ownedOut]
    split_ifs <;> rfl
  | memRead a n =>
    simp only [State.hostOp, State.hostMemRead]
    rw [withSecretsOf_params, withSecretsOf_ownedOut]
    split_ifs <;> rfl
  | reset c => exact absurd rfl (hop c)

/-- Reset clears the secrets, so it forgets which ones there were (R330). -/
theorem withSecretsOf_applyReset (c : Bool) : (s.withSecretsOf g).applyReset c = s.applyReset c := rfl

end WithSecretsOf

/-- The same access from two states that differ in the secrets alone: the same answer, and again states that
differ in the secrets alone. -/
theorem hostOp_sameButSecrets {s t u : State} {op : HostOp} (hst : SameButSecrets s t)
    (h : s.hostOp op = .next u) :
    ∃ v, t.hostOp op = .next v ∧ v.resp = u.resp ∧ SameButSecrets u v := by
  rw [sameButSecrets_iff] at hst
  by_cases hr : ∃ c, op = .reset c
  · obtain ⟨c, rfl⟩ := hr
    cases h
    refine ⟨s.applyReset c, ?_, rfl, .refl _⟩
    rw [hst]
    exact congrArg Host.Outcome.next (withSecretsOf_applyReset s t c)
  · refine ⟨u.withSecretsOf t, ?_, rfl, sameButSecrets_withSecretsOf u t⟩
    rw [hst, withSecretsOf_hostOp s _ (not_exists.1 hr), h, ← hst]
    rfl

theorem SameButSecrets.afterTurn {s t : State} (h : SameButSecrets s t) (rest : List HostOp) :
    SameButSecrets (afterTurn s rest) (Machine.afterTurn t rest) := by
  rw [sameButSecrets_iff] at h
  rw [h, withSecretsOf_afterTurn]
  exact sameButSecrets_withSecretsOf _ t

theorem SameButSecrets.hostMoves {s t : State} (h : SameButSecrets s t) {op : HostOp}
    {rest : List HostOp} (hm : HostMoves s op rest) : HostMoves t op rest := by
  rw [sameButSecrets_iff] at h
  rw [h]
  exact hm

end Sys2Proof.Machine
end

section
/-! The statements of spec/10_state.md, settled. -/

open Sys2Proof Sys2Proof.Machine

/-- Settles O1: the decoder answers with a command exactly where the word's four fields are those of the
encoder's word. -/
theorem decodeInvertsEncode : Obligations.DecodeInvertsEncode := decode_eq_ok_iff_encode

/-- Settles O6: the accepted write's next state is the model's `acceptCommand`, on the state after the host's
turn. -/
theorem acceptedWriteStartsTheCommand : Obligations.AcceptedWriteStartsTheCommand := by
  intro s w i rest hc hm hd hr
  have hidle : State.core { s with host := rest } = .idle := hc
  have href : State.commandRefusal i { s with host := rest } = none :=
    (commandRefusal_congr i rfl rfl rfl).trans hr
  have haccept := (writeCmd_eq_next w { s with host := rest } _).2 ⟨i, hd, href, rfl⟩
  rw [step_regWrite (off := offCmd) (by decide) (by decide) hm, afterTurn_of_idle hc,
    writeReg_cmd_of_idle hidle, haccept, acceptCommand_of_idle hidle]

/-- Settles O8: the key's range is all that could refuse SM4_SETKEY. -/
theorem setKeyLoadsCipherContext : Obligations.SetKeyLoadsCipherContext :=
  fun _ h => exec_of_none (commandRefusal_sm4SetKey h)

/-- Settles O39, from the fields a command's effect writes. -/
theorem commandsLeaveRegisters : Obligations.CommandsLeaveRegisters := by
  intro i s t h
  obtain ⟨-, rfl⟩ := exec_eq_next.1 h
  obtain ⟨c, g, m, e, he⟩ := commandEffect_eq_update i s
  rw [he]

/-- Settles O40: every other command's effect keeps the context. -/
theorem contextsHaveTheirOwnWriters : Obligations.ContextsHaveTheirOwnWriters := by
  intro i s t h
  obtain ⟨-, rfl⟩ := exec_eq_next.1 h
  constructor
  · contrapose!
    rintro ⟨hset, hclear⟩
    exact commandEffect_cipher s hset hclear
  · contrapose!
    rintro ⟨hkey, hiv, haad, hclear⟩
    exact commandEffect_session s hkey hiv haad hclear

/-- Settles O45: a host turn that is no reset keeps both contexts, CAP and the parameters. -/
theorem onlyCommandsAndResetChangeContexts : Obligations.OnlyCommandsAndResetChangeContexts := by
  intro s t h
  rcases step_contexts h with ⟨hp, hcap, hc, hg⟩ | ⟨hp, hcap, hf⟩ | ⟨hp, c, rest, hm, hcap⟩
  · exact ⟨hp, fun hne => absurd hcap hne, fun hne => absurd ⟨hc, hg⟩ (not_and_or.2 hne)⟩
  · exact ⟨hp, fun hne => absurd hcap hne, fun _ => .inl hf⟩
  · exact ⟨hp, fun _ => ⟨c, rest, hm, hcap⟩, fun _ => .inr ⟨c, rest, hm⟩⟩

/-- Settles O46: no host access looks at the secrets, so it commutes with exchanging them; reset clears them. -/
theorem hostAccessRevealsNoSecret : Obligations.HostAccessRevealsNoSecret := by
  intro s t u op rest hst hm hstep
  rw [step_hostMoves hm] at hstep
  rw [step_hostMoves (hst.hostMoves hm)]
  exact hostOp_sameButSecrets (hst.afterTurn rest) hstep

/-- Settles O47, field by field of STATUS. -/
theorem statusReadWhileIdle : Obligations.StatusReadWhileIdle := by
  intro s rest hc hm
  obtain ⟨hcipher, hsession, hiv⟩ := contextBits_getLsbD s
  refine ⟨s.idleStatus, ?_, statusFields_busy .., statusFields_done .., ?_,
    (statusFields_ctxBit (k := 0) _ _ _ _ _ (by decide)).trans hcipher,
    (statusFields_ctxBit (k := 1) _ _ _ _ _ (by decide)).trans hsession,
    (statusFields_ctxBit (k := 2) _ _ _ _ _ (by decide)).trans hiv,
    statusFields_cap .., statusFields_high ..⟩
  · have hidle : State.core { s with host := rest } = .idle := hc
    rw [step_readStatus hm, afterTurn_of_idle hc, readStatus_of_idle hidle]
    rfl
  · exact (statusFields_err ..).trans (by cases s.err <;> rfl)

/-- Settles O48: STATUS while BUSY field by field, the other registers as at any time. -/
theorem readsWhileBusy : Obligations.ReadsWhileBusy := by
  intro s f rest hc
  constructor
  · intro hm
    refine ⟨s.busyStatus (Config.freeStatusBits s.freeCount), ?_, statusFields_busy ..,
      statusFields_done .., statusFields_err .., statusFields_ctx .., statusFields_cap ..,
      statusFields_high ..⟩
    have hbusy : State.core { s with host := rest, core := .busy { f with turns := f.turns - 1 } }
      = .busy { f with turns := f.turns - 1 } := rfl
    rw [step_readStatus hm, afterTurn_of_busy hc, readStatus_of_busy hbusy]
    rfl
  · intro off val hmem hm
    obtain ⟨hlt, h4, hne, rfl⟩ := regValue_of_mem hmem
    exact step_readValue hlt h4 hne hm

/-- Settles O49: one write per register, on the state after the host's turn. -/
theorem registerWritesWhileIdle : Obligations.RegisterWritesWhileIdle := by
  intro s off v rest hc hm
  have hidle : State.core { s with host := rest } = .idle := hc
  have hstep (hlt : off < 256) (h4 : off % 4 = 0) :
      step s = State.writeReg off v { s with host := rest } := by
    rw [step_regWrite hlt h4 hm, afterTurn_of_idle hc]
  refine ⟨?_, ?_, ?_, ?_, ?_, ?_, fun h => ?_⟩
  iterate 6
    rintro rfl
    exact (hstep (by decide) (by decide)).trans (writeRegs_of_idle hidle _)
  rw [hstep (by omega) (by omega)]
  exact writeReg_ignored _ v (h.imp id And.left)

/-- Settles O50: the value answered is the register's. -/
theorem registerReads : Obligations.RegisterReads := by
  intro s off rest hlt h4 hne hm
  refine ⟨s.regValue off, step_readValue hlt h4 hne hm, ?_, ?_, ?_, ?_, ?_, ?_, regValue_zero s⟩
  iterate 5 rintro rfl; rfl
  rintro rfl
  exact regValue_backendSel s

/-- Settles O5: with no host turn left the step is the core's move. -/
theorem stepRunsTheLatchedCommand : Obligations.StepRunsTheLatchedCommand :=
  fun _ _ _ hc ht hd => step_of_no_turns hc ht hd

end

section
/-! SUPPORT. The range checks in the order of R305, the memory a command may write (R80, R103, R307), and what the
host's accesses to the window (R79) and to the data memory (R82, R341) answer. -/

namespace Sys2Proof.Machine

open Sys2Proof

/-! ### The refusals for a command's ranges -/

/-- An illegal overlap, by R80 or by R247 and R248, is reported before a range past memory
(notes/assumptions/8.md). -/
theorem rangeRefusal_eq_overlap {i : Instr} {s : State} (hb : BlockCountLegal i s)
    (h : ¬ OverlapLegal (commandRanges i s.operands) ∨ ¬ TagClear i s) :
    rangeRefusal s.params.memSize i s.operands = some .overlap := by
  rw [← overlapLegal_iff, ← tagRangeLegal_iff, Bool.not_eq_true, Bool.not_eq_true] at h
  rw [rangeRefusal, (blockCountLegal_iff i s).2 hb, if_neg Bool.noConfusion]
  rcases h with ho | ht
  · rw [if_pos ho]
  · rw [if_pos ht, ite_self]

/-- Too many blocks are refused whatever the addresses (R104; notes/assumptions/20.md). -/
theorem rangeRefusal_of_blockCount {i : Instr} {s : State} (hb : ¬ BlockCountLegal i s) :
    rangeRefusal s.params.memSize i s.operands = some .outOfRange := by
  rw [← blockCountLegal_iff, Bool.not_eq_true] at hb
  rw [rangeRefusal, if_pos hb]

/-- With the overlaps legal, only R104, R72 and R73 are left to refuse a command for. -/
theorem rangeRefusal_eq_outOfRange {i : Instr} {s : State}
    (ho : OverlapLegal (commandRanges i s.operands)) (ht : TagClear i s)
    (hm : ¬ AllInMemory s (commandRanges i s.operands)) :
    rangeRefusal s.params.memSize i s.operands = some .outOfRange := by
  rw [← fits_iff, Bool.not_eq_true] at hm
  simp only [rangeRefusal, (overlapLegal_iff _).2 ho, (tagRangeLegal_iff i s).2 ht, hm,
    Bool.true_eq_false, if_false, if_true, ite_self]

/-- With the earlier checks passed, what the ranges are refused for refuses the command. -/
theorem exec_refused_of_ranges {i : Instr} {s : State} {r : Refusal} (h : ReachesRangeChecks i s)
    (hr : rangeRefusal s.params.memSize i s.operands = some r) : exec i s = .refused r :=
  exec_eq_refused.2 ((commandRefusal_of_reaches h).trans hr)

/-! ### The memory a command writes -/

/-- A byte-string write leaves every address outside its range alone, whatever the memory lists. -/
theorem Memory.readByte_writeBytes_outside (bs : List Byte) (m : Memory) (a x : Nat)
    (h : ¬ (a ≤ x ∧ x < a + bs.length)) : (m.writeBytes a bs).readByte x = m.readByte x := by
  induction bs generalizing m a with
  | nil => rfl
  | cons b bs ih =>
    rw [List.length_cons] at h
    rw [Memory.writeBytes, ih _ _ (by omega), Memory.readByte_writeByte_ne _ _ _ _ (by omega)]

/-- `m'` reads as `m` outside the ranges, and is canonical if `m` is. -/
structure Memory.WrittenWithin (rs : List Range) (m m' : Memory) : Prop where
  frame : ∀ x, (∀ r ∈ rs, ¬ (r.addr ≤ x ∧ x < r.addr + r.len)) → m'.readByte x = m.readByte x
  wf : m.wf → m'.wf

theorem Memory.WrittenWithin.refl (rs : List Range) (m : Memory) : m.WrittenWithin rs m :=
  ⟨fun _ _ => rfl, id⟩

/-- One more write, of no more bytes than one of the ranges has. -/
theorem Memory.WrittenWithin.writeBytes {rs : List Range} {m m' : Memory}
    (h : m.WrittenWithin rs m') {a n : Nat} {bs : List Byte} (hr : ⟨a, n⟩ ∈ rs) (hn : bs.length ≤ n) :
    m.WrittenWithin rs (m'.writeBytes a bs) where
  frame x hx := by
    have hout : ¬ (a ≤ x ∧ x < a + n) := hx ⟨a, n⟩ hr
    rw [Memory.readByte_writeBytes_outside bs m' a x (by omega), h.frame x hx]
  wf hm := Memory.wf_writeBytes bs m' a (h.wf hm)

theorem tag_length_le (g : GcmSession) (p : Params) (be : Backend) (c : List Byte) (t : Nat) :
    (g.tag p be c t).length ≤ t :=
  List.length_take_le _ _

/-- A command writes its result at DST, GCM_ENC its tag at TAG too, each as long as R103 lists it. -/
theorem commandEffect_writtenWithin (i : Instr) (s : State) :
    s.mem.WrittenWithin (commandRanges i s.operands).outputs (commandEffect i s).mem := by
  have hrefl := Memory.WrittenWithin.refl (commandRanges i s.operands).outputs s.mem
  cases i with
  | gcmEnc t =>
    simp only [commandEffect]
    split_ifs
    · exact hrefl
    · refine (hrefl.writeBytes (n := s.operands.len.toNat) ?_ ?_).writeBytes (n := t.toNat) ?_
        (tag_length_le ..)
      · simp [commandRanges]
      · simp [State.gcmInput]
      · simp [commandRanges]
  | gcmDec t =>
    simp only [commandEffect]
    split_ifs
    · exact hrefl
    · exact hrefl
    · refine hrefl.writeBytes (n := s.operands.len.toNat) ?_ ?_
      · simp [commandRanges]
      · simp [State.gcmInput]
  | ksExpand | sm4Enc | sm4Dec | sm4EncBlocks | sm4DecBlocks | gfMul | ghash =>
    simp only [commandEffect, finish_mem, store_mem]
    exact hrefl.writeBytes (List.mem_singleton.2 rfl) (by simp)
  | sm4SetKey | sm4Clear | gcmSetKey | gcmSetIv | gcmSetAad | gcmClear => exact hrefl

/-- A command that raises an error ends before its first write (R307). -/
theorem commandEffect_mem_of_err {i : Instr} {s : State} (h : (commandEffect i s).err ≠ .none) :
    (commandEffect i s).mem = s.mem := by
  cases i with
  | gcmEnc t =>
    simp only [commandEffect] at h ⊢
    split_ifs at h ⊢
    · rfl
    · exact absurd rfl h
  | gcmDec t =>
    simp only [commandEffect] at h ⊢
    split_ifs at h ⊢
    · rfl
    · rfl
    · exact absurd rfl h
  | ksExpand | sm4SetKey | sm4Enc | sm4Dec | sm4EncBlocks | sm4DecBlocks | sm4Clear | gfMul | ghash
    | gcmSetKey | gcmSetIv | gcmSetAad | gcmClear => exact absurd rfl h

/-! ### The register window -/

theorem touchesWindow_of_byte {p : Params} {a w : Nat}
    (h : ∃ x, a ≤ x ∧ x < a + w ∧ p.regBase ≤ x ∧ x < p.regBase + 256) :
    touchesWindow p a w = true := by
  obtain ⟨x, hx⟩ := h
  rw [touchesWindow, Bool.not_eq_true', ← Bool.not_eq_true, Range.disjoint_iff]
  simp only [Apart, windowSize]
  omega

theorem isWordAccess_eq_false {p : Params} {a w : Nat}
    (h : ¬ (w = 4 ∧ p.regBase ≤ a ∧ (a - p.regBase) % 4 = 0)) : isWordAccess p a w = false := by
  rw [← Bool.not_eq_true]
  intro hw
  simp only [isWordAccess, Bool.and_eq_true, decide_eq_true_eq] at hw
  obtain ⟨⟨⟨hwidth, hbase⟩, halign⟩, -⟩ := hw
  exact h ⟨hwidth, hbase, halign⟩

/-- A write on the window that is no word access is refused, BUSY or not (R79; notes/assumptions/23.md). -/
theorem busWrite_bad {s : State} {a w : Nat} (v : Word) (ht : touchesWindow s.params a w = true)
    (hw : isWordAccess s.params a w = false) : s.busWrite a w v = .refused .badRegisterAccess := by
  rw [State.busWrite, ht, if_neg Bool.noConfusion, if_pos hw]

theorem busRead_bad {s : State} {a w : Nat} (ht : touchesWindow s.params a w = true)
    (hw : isWordAccess s.params a w = false) : s.busRead a w = .refused .badRegisterAccess := by
  rw [State.busRead, ht, if_neg Bool.noConfusion, if_pos hw]

/-! ### The host's own data-memory accesses -/

theorem meetsAny_iff (r : Range) (rs : List Range) :
    meetsAny r rs = true ↔ ∃ r' ∈ rs, ¬ Apart r.addr r.len r'.addr r'.len := by
  simp only [meetsAny, List.any_eq_true, Bool.not_eq_true', ← Bool.not_eq_true, Range.disjoint_iff]

theorem not_meetsAny {r : Range} {rs : List Range} (h : ∀ r' ∈ rs, Apart r.addr r.len r'.addr r'.len) :
    ¬ meetsAny r rs = true := by
  rw [meetsAny_iff]
  rintro ⟨r', hr', hn⟩
  exact hn (h r' hr')

theorem meetsAny_append (r : Range) (rs rs' : List Range) :
    meetsAny r (rs ++ rs') = (meetsAny r rs || meetsAny r rs') :=
  List.any_append

/-- Which host writes inside the data memory are a hazard (R341). -/
theorem hostMemWrite_of_inMemory {s : State} {a : Nat} {bs : List Byte} (hm : InMemory s a bs.length) :
    s.hostMemWrite a bs =
      if meetsAny ⟨a, bs.length⟩ (s.ownedIn ++ s.ownedOut) = true then .refused .hostHazard
      else .next (s.store a bs) := by
  have hfits : Range.fits s.params.memSize ⟨a, bs.length⟩ = true := (Range.fits_iff _ _).2 hm
  rw [State.hostMemWrite, hfits, if_neg Bool.noConfusion, meetsAny_append]
  exact if_congr (Bool.or_eq_true _ _).symm.to_iff rfl rfl

/-- Which host reads inside the data memory are a hazard (R341). -/
theorem hostMemRead_of_inMemory {s : State} {a n : Nat} (hm : InMemory s a n) :
    s.hostMemRead a n =
      if meetsAny ⟨a, n⟩ s.ownedOut = true then .refused .hostHazard
      else .next { s with resp := some (.bytes (s.mem.readBytes a n)) } := by
  have hfits : Range.fits s.params.memSize ⟨a, n⟩ = true := (Range.fits_iff _ _).2 hm
  rw [State.hostMemRead, hfits, if_neg Bool.noConfusion]

/-- A host write inside the data memory, as a step. -/
theorem step_memWrite {s : State} {a : Nat} {bs : List Byte} {rest : List HostOp}
    (h : HostMoves s (.memWrite a bs) rest) (hm : InMemory s a bs.length) :
    step s =
      if meetsAny ⟨a, bs.length⟩ (s.ownedIn ++ s.ownedOut) = true then .refused .hostHazard
      else .next ((afterTurn s rest).store a bs) := by
  have hm' : InMemory (afterTurn s rest) a bs.length := by rwa [InMemory, afterTurn_params]
  rw [step_hostMoves h, State.hostOp, hostMemWrite_of_inMemory hm', afterTurn_ownedIn, afterTurn_ownedOut]

/-- A host read inside the data memory, as a step. -/
theorem step_memRead {s : State} {a n : Nat} {rest : List HostOp} (h : HostMoves s (.memRead a n) rest)
    (hm : InMemory s a n) :
    step s =
      if meetsAny ⟨a, n⟩ s.ownedOut = true then .refused .hostHazard
      else .next { afterTurn s rest with resp := some (.bytes ((afterTurn s rest).mem.readBytes a n)) } := by
  have hm' : InMemory (afterTurn s rest) a n := by rwa [InMemory, afterTurn_params]
  have howned : meetsAny ⟨a, n⟩ (afterTurn s rest).ownedOut = meetsAny ⟨a, n⟩ s.ownedOut := by
    rw [afterTurn_ownedOut]
  rw [step_hostMoves h, State.hostOp, hostMemRead_of_inMemory hm', howned]

end Sys2Proof.Machine
end

section
/-! The statements of spec/20_memory.md, settled. -/

open Sys2Proof Sys2Proof.Machine

/-- Settles O35: with the block count legal, the overlap checks come next. -/
theorem illegalOverlapRefused : Obligations.IllegalOverlapRefused :=
  fun _ _ hreach hb h => exec_refused_of_ranges hreach (rangeRefusal_eq_overlap hb h)

/-- Settles O36: a range past memory is one that `AllInMemory` does not hold of. -/
theorem outOfRangeRefused : Obligations.OutOfRangeRefused := by
  intro i s hreach
  refine ⟨fun hb => exec_refused_of_ranges hreach (rangeRefusal_of_blockCount hb), ?_⟩
  rintro ho ht ⟨r, hr, hne, hlt⟩
  refine exec_refused_of_ranges hreach (rangeRefusal_eq_outOfRange ho ht fun hall => ?_)
  have hin : InMemory s r.addr r.len := hall r hr
  omega

/-- Settles O41, from the writes of the command's effect. -/
theorem memoryChangesOnlyInOutputRanges : Obligations.MemoryChangesOnlyInOutputRanges := by
  intro i s t hexec
  obtain ⟨-, rfl⟩ := exec_eq_next.1 hexec
  obtain ⟨hframe, hwf⟩ := commandEffect_writtenWithin i s
  exact ⟨hframe, hwf, commandEffect_mem_of_err⟩

/-- Settles O52: the window's checks see only the parameters, which the host's turn keeps. -/
theorem nonWordRegisterAccessRefused : Obligations.NonWordRegisterAccessRefused := by
  intro s a w v rest hbyte hword hm
  rw [← afterTurn_params s rest] at hbyte hword
  have ht := touchesWindow_of_byte hbyte
  have hw := isWordAccess_eq_false hword
  rcases hm with hm | hm
  · exact (step_hostMoves hm).trans (busWrite_bad v ht hw)
  · exact (step_hostMoves hm).trans (busRead_bad ht hw)

/-- Settles O53: an access meets an owned range, or it is carried out on the state after the host's turn. -/
theorem ownedRangesAreProtected : Obligations.OwnedRangesAreProtected := by
  intro s a n bs rest
  refine ⟨fun hm hin => ?_, fun hm hin => ?_⟩
  · rw [step_memWrite hm hin]
    refine ⟨fun hmeet => if_pos ((meetsAny_iff _ _).2 hmeet), fun hapart hwf => ?_⟩
    rw [if_neg (not_meetsAny hapart)]
    refine ⟨_, rfl, rfl, fun x => ?_⟩
    rw [store_mem, afterTurn_mem]
    exact Memory.readByte_writeBytes bs s.mem a x hwf
  · rw [step_memRead hm hin]
    refine ⟨fun hmeet => if_pos ((meetsAny_iff _ _).2 hmeet), fun hapart => ?_⟩
    rw [if_neg (not_meetsAny hapart)]
    refine ⟨_, rfl, Memory.readBytes_length .., fun k hk => ?_⟩
    rw [Memory.readBytes_getD _ a n k hk, afterTurn_mem]

end

section
/-! SUPPORT. Which words are reserved encodings (R102, R106), what a CMD write of one answers, and the command word
each mnemonic writes (R109). -/

namespace Sys2Proof

/-- One command for each row of R102. -/
def opcodeMapCommands : List Instr :=
  [.ksExpand, .sm4SetKey, .sm4Enc, .sm4Dec, .sm4EncBlocks, .sm4DecBlocks, .sm4Clear, .gfMul, .ghash,
    .gcmSetKey, .gcmSetIv, .gcmSetAad, .gcmEnc 0, .gcmDec 0, .gcmClear]

/-- The opcodes of R102 are those of the commands. -/
theorem exists_opcode_eq_iff (op : BitVec 6) :
    (∃ i : Instr, op = i.opcode) ↔
      op.toNat ∈ [0x01, 0x02, 0x03, 0x04, 0x05, 0x06, 0x07, 0x11, 0x12, 0x21, 0x22, 0x23, 0x24, 0x25,
        0x26] := by
  constructor
  · rintro ⟨i, rfl⟩
    cases i with
    | gcmEnc t | gcmDec t => simp [Instr.opcode]
    | ksExpand | sm4SetKey | sm4Enc | sm4Dec | sm4EncBlocks | sm4DecBlocks | sm4Clear | gfMul | ghash
      | gcmSetKey | gcmSetIv | gcmSetAad | gcmClear => decide
  · intro h
    change op.toNat ∈ opcodeMapCommands.map (fun i => i.opcode.toNat) at h
    obtain ⟨i, -, hi⟩ := List.mem_map.1 h
    exact ⟨i, BitVec.eq_of_toNat_eq hi.symm⟩

/-- R106 on TAGLEN: GCM_ENC and GCM_DEC take 0 to 16, every other command 0. -/
theorem exists_hasFields_opcode_iff (i : Instr) (t : BitVec 5) :
    (∃ j : Instr, j.HasFields i.opcode t) ↔
      ((i.opcode = 0x24 ∨ i.opcode = 0x25) → t.toNat ≤ 16) ∧
        (i.opcode ≠ 0x24 → i.opcode ≠ 0x25 → t = 0) := by
  constructor
  · rintro ⟨j, hwf, hop, rfl⟩
    rw [hop]
    cases j with
    | gcmEnc u => exact ⟨fun _ => of_decide_eq_true hwf, fun henc _ => absurd rfl henc⟩
    | gcmDec u => exact ⟨fun _ => of_decide_eq_true hwf, fun _ hdec => absurd rfl hdec⟩
    | ksExpand | sm4SetKey | sm4Enc | sm4Dec | sm4EncBlocks | sm4DecBlocks | sm4Clear | gfMul | ghash
      | gcmSetKey | gcmSetIv | gcmSetAad | gcmClear => exact ⟨fun _ => by decide, fun _ _ => rfl⟩
  · rintro ⟨hle, hzero⟩
    cases i with
    | gcmEnc u => exact ⟨.gcmEnc t, decide_eq_true (hle (.inl rfl)), rfl, rfl⟩
    | gcmDec u => exact ⟨.gcmDec t, decide_eq_true (hle (.inr rfl)), rfl, rfl⟩
    | ksExpand | sm4SetKey | sm4Enc | sm4Dec | sm4EncBlocks | sm4DecBlocks | sm4Clear | gfMul | ghash
      | gcmSetKey | gcmSetIv | gcmSetAad | gcmClear =>
      exact ⟨_, rfl, rfl, hzero (by decide) (by decide)⟩

/-- Which words encode a command: none of R106's five conditions holds. -/
theorem exists_decode_iff (w : Word) :
    (∃ i, decode w = .ok i) ↔
      highReservedField w = 0 ∧ lowReservedField w = 0 ∧ (∃ i : Instr, opcodeField w = i.opcode) ∧
        ((opcodeField w = 0x24 ∨ opcodeField w = 0x25) → (tagLenField w).toNat ≤ 16) ∧
        (opcodeField w ≠ 0x24 → opcodeField w ≠ 0x25 → tagLenField w = 0) := by
  simp only [decode_eq_ok, decodeOpcode_eq_ok, exists_and_left]
  refine and_congr_right fun _ => and_congr_right fun _ => ?_
  constructor
  · rintro ⟨j, hwf, hop, ht⟩
    rw [hop]
    exact ⟨⟨j, rfl⟩, (exists_hasFields_opcode_iff j _).1 ⟨j, hwf, rfl, ht⟩⟩
  · rintro ⟨⟨i, hi⟩, htag⟩
    rw [hi] at htag ⊢
    exact (exists_hasFields_opcode_iff i _).2 htag

/-- The TAGLEN and OPCODE fields of GCM_ENC's word, put in place (R109). -/
theorem encode_gcmEnc (t : BitVec 5) : encode (.gcmEnc t) = (t.setWidth 32 <<< 8) ||| 0x24 := by
  revert t; decide

theorem encode_gcmDec (t : BitVec 5) : encode (.gcmDec t) = (t.setWidth 32 <<< 8) ||| 0x25 := by
  revert t; decide

namespace Machine

/-- The range checks have no reserved encoding to report (R305). -/
theorem rangeRefusal_ne_reservedEncoding (n : Nat) (i : Instr) (r : OperandRegs) :
    rangeRefusal n i r ≠ some .reservedEncoding := by
  unfold rangeRefusal
  split_ifs <;> simp

/-- A command that a word encodes is never refused as a reserved encoding. -/
theorem commandRefusal_ne_reservedEncoding {i : Instr} {s : State} (hwf : i.wf = true) :
    s.commandRefusal i ≠ some .reservedEncoding := by
  have hrange := rangeRefusal_ne_reservedEncoding s.params.memSize i s.operands
  unfold State.commandRefusal
  rw [hwf, if_neg Bool.noConfusion]
  cases i with
  | gcmEnc t | gcmDec t =>
    dsimp only
    split_ifs
    · exact hrange
    · simp
  | gcmSetIv | gcmSetAad =>
    dsimp only
    split_ifs
    · simp
    · exact hrange
  | ksExpand | sm4SetKey | sm4Enc | sm4Dec | sm4EncBlocks | sm4DecBlocks | sm4Clear | gfMul | ghash
    | gcmSetKey | gcmClear => exact hrange

/-- A CMD write is refused as a reserved encoding exactly when its word encodes no command (R106). -/
theorem writeCmd_eq_reservedEncoding (w : Word) (s : State) :
    s.writeCmd w = .refused .reservedEncoding ↔ ¬ ∃ i, decode w = .ok i := by
  cases hd : decode w with
  | error e => simp [State.writeCmd, hd]
  | ok i =>
    obtain ⟨hwf, -⟩ := (decode_eq_ok_iff_encode w i).1 hd
    have hne := commandRefusal_ne_reservedEncoding (s := s) hwf
    cases hr : s.commandRefusal i with
    | none => simp [State.writeCmd, hd, hr]
    | some r =>
      rw [hr] at hne
      simpa [State.writeCmd, hd, hr] using hne

/-- A CMD write while IDLE, as a step, on the state after the host's turn. -/
theorem step_writeCmd {s : State} {w : Word} {rest : List HostOp} (hc : s.core = .idle)
    (hm : HostMoves s (.write s.params.regBase 4 w) rest) :
    step s = State.writeCmd w { s with host := rest } := by
  have hidle : State.core { s with host := rest } = .idle := hc
  rw [step_regWrite (off := offCmd) (by decide) (by decide) hm, afterTurn_of_idle hc,
    writeReg_cmd_of_idle hidle]

/-- A mnemonic, its operand writes, its command word and its command, as R109 ties them: the operand writes in
order, the CMD write, `wait`; and the word encodes the command. -/
def ExpandsTo (p : Params) : Pseudo × List (Nat × Word) × Word × Instr → Prop
  | (m, writes, w, i) =>
    m.expand p = writes.map (fun x => .write (p.regBase + x.1) 4 x.2) ++ [.write p.regBase 4 w, .wait] ∧
      encode i = w

end Machine
end Sys2Proof
end

section
/-! SUPPORT. Commands that store one result: when nothing refuses them and what they leave behind (R103, R305).
The block commands' bytes, block by block, whatever the backend (R184, R185, R189). -/

namespace Sys2Proof.Machine

open Sys2Proof

/-- A command with one input and one output range, and no tag buffer, is refused only for those two ranges. -/
theorem commandRefusal_of_oneInputOneOutput {i : Instr} {s : State} {a n b m : Nat}
    (hranges : commandRanges i s.operands = ⟨[⟨a, n⟩], [⟨b, m⟩]⟩) (hreach : ReachesRangeChecks i s)
    (hcount : BlockCountLegal i s) (htag : TagClear i s) (hin : InMemory s a n) (hout : InMemory s b m)
    (hpair : InPlaceOrApart b m a n) : s.commandRefusal i = none := by
  apply commandRefusal_eq_none hreach hcount _ htag <;> rw [hranges]
  · simpa [AllInMemory] using ⟨hin, hout⟩
  · simpa [OverlapLegal] using hpair

/-- SM4_ENC_BLOCKS and SM4_DEC_BLOCKS with a count below 2^28 are refused only for their two ranges (R104). -/
theorem commandRefusal_blocks {i : Instr} {s : State} (hi : i = .sm4EncBlocks ∨ i = .sm4DecBlocks)
    (hlen : s.operands.len.toNat < 2 ^ 28)
    (hsrc : InMemory s s.operands.src.toNat (16 * s.operands.len.toNat))
    (hdst : InMemory s s.operands.dst.toNat (16 * s.operands.len.toNat))
    (hpair : InPlaceOrApart s.operands.dst.toNat (16 * s.operands.len.toNat)
      s.operands.src.toNat (16 * s.operands.len.toNat)) : s.commandRefusal i = none := by
  rcases hi with rfl | rfl <;>
    exact commandRefusal_of_oneInputOneOutput rfl ⟨rfl, by simp, by simp, by simp⟩ (fun _ => hlen)
      (by simp [TagClear]) hsrc hdst hpair

/-- KS_EXPAND is refused only for its two ranges, the key's and the schedule's (R103, R165). -/
theorem commandRefusal_ksExpand {s : State} (hsrc : InMemory s s.operands.src.toNat 16)
    (hdst : InMemory s s.operands.dst.toNat 128)
    (hapart : Apart s.operands.dst.toNat 128 s.operands.src.toNat 16) :
    s.commandRefusal .ksExpand = none :=
  commandRefusal_of_oneInputOneOutput rfl ⟨rfl, by simp, by simp, by simp⟩ (by simp [BlockCountLegal])
    (by simp [TagClear]) hsrc hdst (.inr hapart)

/-- A command that is not refused and stores one byte string changes data memory there and nothing else but the
status (R73, R304). -/
theorem exec_overwrites {i : Instr} {s : State} {a : Nat} {bs : List Byte} (hm : s.mem.wf)
    (hr : s.commandRefusal i = none) (he : commandEffect i s = (s.store a bs).finish .none) :
    ∃ t, exec i s = .next t ∧ EndsMemoryOnly s t .none ∧ Overwritten s.mem t.mem a bs := by
  refine ⟨(s.store a bs).finish .none, he ▸ exec_of_none hr, rfl, fun x => ?_⟩
  exact Memory.readByte_writeBytes bs s.mem a x hm

/-- The lanes do not see each other (R189). -/
theorem lockstep_eq_map (keys : List Word) (lanes : List Quad) :
    lockstep keys lanes = lanes.map (fun x => keys.foldl (feistelRound tRound) x) := by
  induction keys generalizing lanes with
  | nil => exact (List.map_id' lanes).symm
  | cons k keys ih =>
    rw [lockstep, List.foldl_cons, ← lockstep, ih, List.map_map]
    rfl

theorem lockstepBlocks_eq_map (rk : Schedule) (dir : Direction) (bs : List Block) :
    lockstepBlocks rk dir bs = bs.map (sm4Crypt rk dir) := by
  rw [lockstepBlocks, lockstep_eq_map, List.map_map, List.map_map]
  rfl

theorem lockstepGroups_eq_map (rk : Schedule) (dir : Direction) (g : Nat) (bs : List Block) :
    lockstepGroups rk dir g bs = (bs.take (4 * g)).map (sm4Crypt rk dir) := by
  induction g generalizing bs with
  | zero => rfl
  | succ g ih =>
    rw [lockstepGroups, lockstepBlocks_eq_map, ih, ← List.map_append, ← List.take_add, Nat.mul_succ,
      Nat.add_comm]

/-- The block commands treat every block on its own, under every backend and either level of CAP (R188, R189). -/
theorem cryptBlocks_eq_map (be : Backend) (cap : Bool) (rk : Schedule) (dir : Direction) (bs : List Block) :
    cryptBlocks be cap rk dir bs = bs.map (sm4Crypt rk dir) := by
  have hengine : engineCrypt be rk dir = sm4Crypt rk dir := funext (engineCrypt_eq be rk dir)
  unfold cryptBlocks
  split_ifs
  · rw [lockstepGroups_eq_map, hengine, ← List.map_append, List.take_append_drop]
  · rw [hengine]

/-- A read of consecutive ranges is the reads of the ranges, one after the other (R72). -/
theorem Memory.readBytes_add (m : Memory) (a n k : Nat) :
    m.readBytes a (n + k) = m.readBytes a n ++ m.readBytes (a + n) k := by
  induction n generalizing a with
  | zero => simp [Memory.readBytes]
  | succ n ih =>
    rw [Nat.succ_add, Memory.readBytes, Memory.readBytes, ih, Nat.add_right_comm, Nat.add_assoc a n 1]
    rfl

/-- Block `b` of a range is read 16·b bytes into it (R184). -/
theorem toBlocks_readBytes (m : Memory) (a n : Nat) :
    toBlocks n (m.readBytes a (16 * n))
      = (List.range n).map (fun b => bytesBlock (m.readBytes (a + 16 * b) 16)) := by
  induction n generalizing a with
  | zero => rfl
  | succ n ih =>
    have hlen : (m.readBytes a 16).length = 16 := Memory.readBytes_length m a 16
    rw [show 16 * (n + 1) = 16 + 16 * n by omega, Memory.readBytes_add, toBlocks, List.take_left' hlen,
      List.drop_left' hlen, ih, List.range_succ_eq_map, List.map_cons, List.map_map]
    refine congrArg _ (List.map_congr_left fun b _ => ?_)
    rw [Function.comp_apply, Nat.mul_succ, Nat.add_comm (16 * b), Nat.add_assoc]

/-- The block commands' bytes: SM4Crypt of each input block (R184, R185). -/
theorem cryptedBlocks_eq_flatMap (s : State) (dir : Direction) :
    s.cryptedBlocks dir = (List.range s.operands.len.toNat).flatMap fun b =>
      blockBytes (sm4Crypt s.cipher.rk dir
        (bytesBlock (s.mem.readBytes (s.operands.src.toNat + 16 * b) 16))) := by
  rw [State.cryptedBlocks, cryptBlocks_eq_map, toBlocks_readBytes, blocksBytes, List.map_map,
    List.flatMap_map]
  rfl

end Sys2Proof.Machine
end

section
/-! The statements of spec/30_encoding.md, settled. -/

open Sys2Proof Sys2Proof.Machine

/-- Settles O3: the write is refused exactly when the word encodes no command, condition by condition. -/
theorem reservedEncodingRefused : Obligations.ReservedEncodingRefused := by
  intro s w rest hc hm
  rw [step_writeCmd hc hm, writeCmd_eq_reservedEncoding, exists_decode_iff, exists_opcode_eq_iff,
    ← Nat.not_le]
  simp only [highReservedField, lowReservedField, opcodeField, tagLenField]
  tauto

/-- Settles O7: the two ranges are all that could refuse KS_EXPAND, and its one store is the schedule. -/
theorem keyExpandCommandWritesSchedule : Obligations.KeyExpandCommandWritesSchedule := by
  intro s hm hsrc hdst hapart
  exact exec_overwrites hm (commandRefusal_ksExpand hsrc hdst hapart) rfl

/-- Settles O10: with the count below 2^28 the two ranges are all that could refuse the command, and its one
store is the blocks' SM4Crypt in order. -/
theorem blockCommandsCryptEachBlock : Obligations.BlockCommandsCryptEachBlock := by
  intro s hm hlen hsrc hdst hpair
  simp only [← cryptedBlocks_eq_flatMap]
  exact ⟨exec_overwrites hm (commandRefusal_blocks (.inl rfl) hlen hsrc hdst hpair) rfl,
    exec_overwrites hm (commandRefusal_blocks (.inr rfl) hlen hsrc hdst hpair) rfl⟩

/-- Settles O2: each word is its command's encoding. -/
theorem specWordsDecode : Obligations.SpecWordsDecode := by
  simp only [Obligations.SpecWordsDecode, decode_eq_ok_iff_encode]
  decide

/-- Settles O4, row by row of R109's table. -/
theorem mnemonicsWriteTheirCommand : Obligations.MnemonicsWriteTheirCommand := by
  intro p dst src src2 len tag t n
  refine ⟨fun m writes w i hrow => ?_, rfl⟩
  refine (?_ : ∀ row ∈ _, ExpandsTo p row) _ hrow
  iterate 12 refine List.forall_mem_cons.2 ⟨⟨rfl, by decide⟩, ?_⟩
  refine List.forall_mem_cons.2 ⟨⟨rfl, encode_gcmEnc t⟩, ?_⟩
  refine List.forall_mem_cons.2 ⟨⟨rfl, encode_gcmDec t⟩, ?_⟩
  exact List.forall_mem_singleton.2 ⟨rfl, by decide⟩

end

section
/-! SUPPORT. The round keys of an expansion are the words of any sequence that satisfies R160's recurrence. -/

namespace Sys2Proof.Machine

open Sys2Proof

/-- Stated for the constants `cs` left and a sequence that begins at the present window, so that a round moves
both on by one. -/
theorem expandWindow_getD {cs : List Word} {K : Nat → Word}
    (hrec : ∀ i, i < cs.length →
      K (i + 4) = K i ^^^ tKey (K (i + 1) ^^^ K (i + 2) ^^^ K (i + 3) ^^^ cs.getD i 0))
    {i : Nat} (hi : i < cs.length) :
    (expandWindow cs ⟨K 0, K 1, K 2, K 3⟩).getD i 0 = K (i + 4) := by
  induction cs generalizing K i with
  | nil => exact absurd hi (Nat.not_lt_zero i)
  | cons c cs ih =>
    have hround : keyRound ⟨K 0, K 1, K 2, K 3⟩ c = ⟨K 1, K 2, K 3, K 4⟩ :=
      congrArg (Quad.mk (K 1) (K 2) (K 3)) (hrec 0 (Nat.succ_pos _)).symm
    rw [expandWindow, hround]
    cases i with
    | zero => rfl
    | succ i =>
      exact ih (K := fun n => K (n + 1)) (fun n hn => hrec (n + 1) (Nat.succ_lt_succ hn))
        (Nat.lt_of_succ_lt_succ hi)

/-- The round keys are the expansion of the key's words XORed with FK (R160). -/
theorem keyExpand_toList (key : Block) :
    (keyExpand key).toList = expandWindow ck (quadXor (quadOfBlock key) fk) := by
  simp [keyExpand]

end Sys2Proof.Machine
end

section
/-! The statements of spec/40_primitives.md, settled. -/

open Sys2Proof Sys2Proof.Machine

/-- Settles O12: K begins with the initial window, and the expansion's words then follow it round by round. -/
theorem keyScheduleRecurrence : Obligations.KeyScheduleRecurrence := by
  intro key K h0 h1 h2 h3 hrec i hi
  have hwindow : quadXor (quadOfBlock key) fk = ⟨K 0, K 1, K 2, K 3⟩ := by
    rw [h0, h1, h2, h3]
    rfl
  rw [keyExpand_toList, hwindow]
  exact expandWindow_getD (cs := ck) (K := K) hrec hi

/-- Settles O14: L is linear, so the tables' words add up to the round transform of the whole word. -/
theorem tableIdentity : Obligations.TableIdentity :=
  fun w => ⟨tableRound_eq_tRound w, rfl⟩

end

section
/-! SUPPORT. The block function round by round, and why decryption undoes it (R180, R181, R190). -/

namespace Sys2Proof.Machine

open Sys2Proof

@[simp] theorem roundKeys_length (rk : Schedule) (dir : Direction) : (roundKeys rk dir).length = 32 := by
  cases dir <;> simp [roundKeys]

/-- Decryption takes the round keys from the last to the first (R180). -/
theorem roundKeys_dec_getD (rk : Schedule) {i : Nat} (hi : i < 32) :
    (roundKeys rk .dec).getD i 0 = rk.toList.getD (31 - i) 0 := by
  have hlen : rk.toList.length = 32 := Vector.length_toList
  rw [roundKeys, List.getD_eq_getElem?_getD, List.getD_eq_getElem?_getD,
    List.getElem?_reverse (by omega), hlen]

/-- Rounds move a window of four words along any sequence that satisfies R180's recurrence. Stated for a sequence
that begins at the present window, so that a round moves both on by one. -/
theorem foldl_feistelRound_eq_window {t : Word → Word} {keys : List Word} {X : Nat → Word}
    (hrec : ∀ i, i < keys.length →
      X (i + 4) = X i ^^^ t (X (i + 1) ^^^ X (i + 2) ^^^ X (i + 3) ^^^ keys.getD i 0)) :
    keys.foldl (feistelRound t) ⟨X 0, X 1, X 2, X 3⟩
      = ⟨X keys.length, X (keys.length + 1), X (keys.length + 2), X (keys.length + 3)⟩ := by
  induction keys generalizing X with
  | nil => rfl
  | cons k keys ih =>
    have hround : feistelRound t ⟨X 0, X 1, X 2, X 3⟩ k = ⟨X 1, X 2, X 3, X 4⟩ :=
      congrArg (Quad.mk (X 1) (X 2) (X 3)) (hrec 0 (Nat.succ_pos _)).symm
    rw [List.foldl_cons, hround]
    exact ih (X := fun n => X (n + 1)) fun n hn => hrec (n + 1) (Nat.succ_lt_succ hn)

/-- The words of a block put together from four words are those words (R14). -/
@[simp] theorem quadOfBlock_blockOfQuad (q : Quad) : quadOfBlock (blockOfQuad q) = q := by
  obtain ⟨a, b, c, d⟩ := q
  have h0 : (a ++ b ++ c ++ d).extractLsb' 96 32 = a := by
    rw [BitVec.extractLsb'_append_eq_of_le (by decide), BitVec.extractLsb'_append_eq_of_le (by decide)]
    exact BitVec.extractLsb'_append_eq_left
  have h1 : (a ++ b ++ c ++ d).extractLsb' 64 32 = b := by
    rw [BitVec.extractLsb'_append_eq_of_le (by decide), BitVec.extractLsb'_append_eq_of_le (by decide)]
    exact BitVec.extractLsb'_append_eq_right
  have h2 : (a ++ b ++ c ++ d).extractLsb' 32 32 = c := by
    rw [BitVec.extractLsb'_append_eq_of_le (by decide)]
    exact BitVec.extractLsb'_append_eq_right
  have h3 : (a ++ b ++ c ++ d).extractLsb' 0 32 = d := BitVec.extractLsb'_append_eq_right
  exact (Quad.mk.injEq ..).mpr ⟨h0, h1, h2, h3⟩

@[simp] theorem quadReverse_quadReverse (q : Quad) : quadReverse (quadReverse q) = q := rfl

/-- A round undoes itself when the words stand in the opposite order. -/
theorem feistelRound_quadReverse_feistelRound (t : Word → Word) (x : Quad) (k : Word) :
    feistelRound t (quadReverse (feistelRound t x k)) k = quadReverse x := by
  obtain ⟨a, b, c, d⟩ := x
  have hsum : d ^^^ c ^^^ b ^^^ k = b ^^^ c ^^^ d ^^^ k := by ac_rfl
  have hword : a ^^^ t (b ^^^ c ^^^ d ^^^ k) ^^^ t (d ^^^ c ^^^ b ^^^ k) = a := by
    rw [hsum, BitVec.xor_assoc, BitVec.xor_self, BitVec.xor_zero]
  exact congrArg (Quad.mk d c b) hword

/-- The rounds in the opposite order undo the rounds. -/
theorem foldl_reverse_quadReverse_foldl (t : Word → Word) (keys : List Word) (x : Quad) :
    keys.reverse.foldl (feistelRound t) (quadReverse (keys.foldl (feistelRound t) x)) = quadReverse x := by
  induction keys generalizing x with
  | nil => rfl
  | cons k keys ih =>
    rw [List.foldl_cons, List.reverse_cons, List.foldl_append, ih, List.foldl_cons, List.foldl_nil,
      feistelRound_quadReverse_feistelRound]

/-- Decryption undoes encryption (R190). -/
theorem sm4Crypt_dec_enc (rk : Schedule) (b : Block) : sm4Crypt rk .dec (sm4Crypt rk .enc b) = b := by
  simp only [sm4Crypt, cryptWith, roundKeys, quadOfBlock_blockOfQuad, foldl_reverse_quadReverse_foldl,
    quadReverse_quadReverse, blockOfQuad_quadOfBlock]

end Sys2Proof.Machine
end

section
/-! SUPPORT. The single-block commands and SM4_CLEAR: when nothing refuses them and what they leave behind (R182,
R183, R186). -/

namespace Sys2Proof.Machine

open Sys2Proof

/-- SM4_ENC and SM4_DEC are refused only for their two blocks (R103). -/
theorem commandRefusal_singleBlock {i : Instr} {s : State} (hi : i = .sm4Enc ∨ i = .sm4Dec)
    (hsrc : InMemory s s.operands.src.toNat 16) (hdst : InMemory s s.operands.dst.toNat 16)
    (hpair : InPlaceOrApart s.operands.dst.toNat 16 s.operands.src.toNat 16) :
    s.commandRefusal i = none := by
  rcases hi with rfl | rfl <;>
    exact commandRefusal_of_oneInputOneOutput rfl ⟨rfl, by simp, by simp, by simp⟩
      (by simp [BlockCountLegal]) (by simp [TagClear]) hsrc hdst hpair

/-- SM4_CLEAR names no range, so nothing refuses it (R103). -/
theorem commandRefusal_sm4Clear (s : State) : s.commandRefusal .sm4Clear = none :=
  commandRefusal_eq_none ⟨rfl, by simp, by simp, by simp⟩ (by simp [BlockCountLegal])
    (by simp [OverlapLegal, commandRanges]) (by simp [TagClear]) (by simp [AllInMemory, commandRanges])

/-- SM4_ENC stores SM4Crypt of its block, whatever the backend (R182, R188). -/
theorem commandEffect_sm4Enc (s : State) : commandEffect .sm4Enc s =
    (s.store s.operands.dst.toNat
      (blockBytes (sm4Crypt s.cipher.rk .enc (s.readBlock s.operands.src.toNat)))).finish .none := by
  rw [← engineCrypt_eq s.backend]
  rfl

/-- SM4_DEC stores SM4Crypt of its block, whatever the backend (R183, R188). -/
theorem commandEffect_sm4Dec (s : State) : commandEffect .sm4Dec s =
    (s.store s.operands.dst.toNat
      (blockBytes (sm4Crypt s.cipher.rk .dec (s.readBlock s.operands.src.toNat)))).finish .none := by
  rw [← engineCrypt_eq s.backend]
  rfl

/-- A block read where it was written. -/
theorem Memory.readBytes_writeBytes_block (m : Memory) (a : Nat) (b : Block) (hm : m.wf) :
    (m.writeBytes a (blockBytes b)).readBytes a 16 = blockBytes b := by
  simpa using Memory.readBytes_writeBytes_same (blockBytes b) m a hm

end Sys2Proof.Machine
end

section
/-! SUPPORT. No command's effect depends on the backend or on CAP (R188). -/

namespace Sys2Proof.Machine

open Sys2Proof

/-! ### The session's functions are those of SM4Crypt -/

theorem encrypt_eq_sm4Crypt (g : GcmSession) (be : Backend) : g.encrypt be = sm4Crypt g.rk .enc :=
  funext (engineCrypt_eq be g.rk .enc)

theorem ctr_backend (g : GcmSession) (p : Params) (be be' : Backend) (d : List Byte) :
    g.ctr p be d = g.ctr p be' d := by
  rw [GcmSession.ctr, GcmSession.ctr, encrypt_eq_sm4Crypt, encrypt_eq_sm4Crypt]

theorem tag_backend (g : GcmSession) (p : Params) (be be' : Backend) (c : List Byte) (t : Nat) :
    g.tag p be c t = g.tag p be' c t := by
  rw [GcmSession.tag, GcmSession.tag, encrypt_eq_sm4Crypt, encrypt_eq_sm4Crypt]

theorem withKey_backend (g : GcmSession) (be be' : Backend) (key : Block) :
    g.withKey be key = g.withKey be' key := by
  rw [GcmSession.withKey, GcmSession.withKey, engineCrypt_eq, engineCrypt_eq]

/-! ### Changing the engine before a command or after it -/

variable (s : State) (be : BitVec 2) (cap : Bool)

@[simp] theorem readBlock_withEngine (a : Nat) : (s.withEngine be cap).readBlock a = s.readBlock a := rfl

@[simp] theorem cryptedBlocks_withEngine (dir : Direction) :
    (s.withEngine be cap).cryptedBlocks dir = s.cryptedBlocks dir := by
  simp only [State.cryptedBlocks, cryptBlocks_eq_map, withEngine_operands, withEngine_mem, withEngine_cipher]

@[simp] theorem gcmInput_withEngine : (s.withEngine be cap).gcmInput = s.gcmInput := by
  simp only [State.gcmInput, withEngine_operands, withEngine_mem]

@[simp] theorem store_withEngine (a : Nat) (bs : List Byte) :
    (s.withEngine be cap).store a bs = (s.store a bs).withEngine be cap := rfl

@[simp] theorem finish_withEngine (e : ErrCode) :
    (s.withEngine be cap).finish e = (s.finish e).withEngine be cap := rfl

/-- Only GCM_SETKEY, GCM_ENC and GCM_DEC still name the backend, and their session functions give the same
under each. -/
theorem commandEffect_withEngine (i : Instr) :
    commandEffect i (s.withEngine be cap) = (commandEffect i s).withEngine be cap := by
  cases i with
  | sm4Enc => simp [commandEffect_sm4Enc]
  | sm4Dec => simp [commandEffect_sm4Dec]
  | ksExpand | sm4EncBlocks | sm4DecBlocks | gfMul | ghash => simp [commandEffect]
  | sm4SetKey | sm4Clear | gcmSetIv | gcmSetAad | gcmClear =>
    simp only [commandEffect, withEngine_operands]
    rfl
  | gcmSetKey =>
    simp only [commandEffect, withEngine_operands,
      withKey_backend _ (s.withEngine be cap).backend s.backend]
    rfl
  | gcmEnc t | gcmDec t =>
    simp [commandEffect, ctr_backend _ _ (s.withEngine be cap).backend s.backend,
      tag_backend _ _ (s.withEngine be cap).backend s.backend, apply_ite (State.withEngine be cap)]

end Sys2Proof.Machine
end

section
/-! The statements of spec/42_round_engine.md, settled. -/

open Sys2Proof Sys2Proof.Machine

/-- Settles O9: the two blocks are all that could refuse the command, and its one store is SM4Crypt of the block
at SRC. -/
theorem singleBlockCommandsCrypt : Obligations.SingleBlockCommandsCrypt := by
  intro s hm hsrc hdst hpair
  exact ⟨exec_overwrites hm (commandRefusal_singleBlock (.inl rfl) hsrc hdst hpair) (commandEffect_sm4Enc s),
    exec_overwrites hm (commandRefusal_singleBlock (.inr rfl) hsrc hdst hpair) (commandEffect_sm4Dec s)⟩

/-- Settles O13: X begins with the block's words, and the rounds then move the window along X, key by key. -/
theorem roundRecurrence : Obligations.RoundRecurrence := by
  intro rk dir b X h0 h1 h2 h3 hrec
  have hwindow : quadOfBlock b = ⟨X 0, X 1, X 2, X 3⟩ := by
    rw [h0, h1, h2, h3]
    rfl
  have hrounds := foldl_feistelRound_eq_window (t := tRound) (keys := roundKeys rk dir) (X := X) fun i hi => by
    rw [roundKeys_length] at hi
    cases dir with
    | enc => exact hrec i hi
    | dec =>
      rw [roundKeys_dec_getD rk hi]
      exact hrec i hi
  rw [sm4Crypt, cryptWith, hwindow, hrounds, roundKeys_length]
  rfl

/-- Settles O15: neither the engine's transform nor the lockstep path changes a block. -/
theorem batchEqualsSingleBlocks : Obligations.BatchEqualsSingleBlocks :=
  cryptBlocks_eq_map

/-- Settles O16: what refuses a command and what it leaves behind are the same under every engine. -/
theorem backendNeverMatters : Obligations.BackendNeverMatters := by
  intro i s be cap
  rw [exec_eq, exec_eq, commandEffect_withEngine]
  cases h : s.commandRefusal i with
  | none =>
    rw [checked_of_none h, checked_of_none ((withEngine_commandRefusal be cap s i).trans h)]
    rfl
  | some r =>
    rw [checked_of_some h, checked_of_some ((withEngine_commandRefusal be cap s i).trans h)]
    rfl

/-- Settles O17: the rounds in the opposite order undo the rounds, and SM4_DEC reads what SM4_ENC stored. -/
theorem blockRoundTrip : Obligations.BlockRoundTrip := by
  refine ⟨sm4Crypt_dec_enc, fun s t v hs hv henc hrk hread hsrc hdst hpair => ?_⟩
  obtain ⟨-, rfl⟩ := exec_eq_next.1 henc
  have hrefusal := commandRefusal_singleBlock (.inr rfl) hsrc hdst hpair
  refine ⟨commandEffect .sm4Dec v, exec_of_none hrefusal, rfl, ?_⟩
  have hkey : v.cipher.rk = s.cipher.rk := by rw [hrk, commandEffect_cipher s (by decide) (by decide)]
  have hinput : v.readBlock v.operands.src.toNat
      = sm4Crypt s.cipher.rk .enc (s.readBlock s.operands.src.toNat) := by
    rw [State.readBlock, hread, commandEffect_sm4Enc, finish_mem, store_mem,
      Memory.readBytes_writeBytes_block _ _ _ hs, bytesBlock_blockBytes]
  rw [commandEffect_sm4Dec, finish_mem, store_mem, Memory.readBytes_writeBytes_block _ _ _ hv, hkey, hinput,
    sm4Crypt_dec_enc, State.readBlock, blockBytes_bytesBlock _ (Memory.readBytes_length _ _ _)]

/-- Settles O11: SM4_CLEAR has nothing to be refused for, and its effect is the cleared context. -/
theorem clearZeroesCipherContext : Obligations.ClearZeroesCipherContext :=
  fun s => exec_of_none (commandRefusal_sm4Clear s)

end

section
/-! SUPPORT. GFMul through R220's shift alone: every additive map that commutes with the shift passes over a
multiplication, multiplying is such a map, and 80 00..00 is the identity; the ring laws follow (R220,
R221). -/

namespace Sys2Proof.Machine

open Sys2Proof

/-- The identity of the multiplication (R221). -/
def gfOne : Block := 0x80000000000000000000000000000000

/-! ### Maps that pass over a multiplication -/

/-- R220 adds the reduction constant exactly when a 1 is shifted out; when both blocks shift one out, the
constants cancel. -/
theorem gfShift_xor (v w : Block) : gfShift (v ^^^ w) = gfShift v ^^^ gfShift w := by
  simp only [gfShift, BitVec.getLsbD_xor, BitVec.ushiftRight_xor_distrib]
  cases v.getLsbD 0 with
  | false =>
    cases w.getLsbD 0 with
    | false => rfl
    | true => exact BitVec.xor_assoc _ _ _
  | true =>
    cases w.getLsbD 0 with
    | false => simp [BitVec.xor_comm (w >>> 1), BitVec.xor_assoc]
    | true => simp [BitVec.xor_comm (w >>> 1), ← BitVec.xor_assoc _ _ (w >>> 1)]

theorem gfLoop_map {f : Block → Block} (hxor : ∀ v w, f (v ^^^ w) = f v ^^^ f w)
    (hshift : ∀ v, f (gfShift v) = gfShift (f v)) (x : Block) (n : Nat) (z v : Block) :
    f (gfLoop x n z v) = gfLoop x n (f z) (f v) := by
  induction n generalizing z v with
  | zero => rfl
  | succ n ih => rw [gfLoop, gfLoop, ih, hshift, apply_ite f, hxor]

theorem map_zero_of_xor {f : Block → Block} (hxor : ∀ v w, f (v ^^^ w) = f v ^^^ f w) : f 0 = 0 := by
  simpa using hxor 0 0

/-- A map that is additive and commutes with the shift passes over a multiplication. -/
theorem gfMul_map {f : Block → Block} (hxor : ∀ v w, f (v ^^^ w) = f v ^^^ f w)
    (hshift : ∀ v, f (gfShift v) = gfShift (f v)) (x y : Block) : f (gfMul x y) = gfMul x (f y) := by
  rw [gfMul, gfLoop_map hxor hshift, map_zero_of_xor hxor, gfMul]

theorem gfMul_gfShift (x y : Block) : gfMul x (gfShift y) = gfShift (gfMul x y) :=
  (gfMul_map gfShift_xor (fun _ => rfl) x y).symm

theorem gfLoop_xor (x : Block) (n : Nat) (z z' v v' : Block) :
    gfLoop x n (z ^^^ z') (v ^^^ v') = gfLoop x n z v ^^^ gfLoop x n z' v' := by
  induction n generalizing z z' v v' with
  | zero => rfl
  | succ n ih =>
    rw [gfLoop, gfLoop, gfLoop, ← ih, gfShift_xor]
    congr 1
    split
    · ac_rfl
    · rfl

theorem gfMul_xor_right (x y z : Block) : gfMul x (y ^^^ z) = gfMul x y ^^^ gfMul x z :=
  gfLoop_xor x 128 0 0 y z

@[simp] theorem gfMul_zero (x : Block) : gfMul x 0 = 0 := map_zero_of_xor (gfMul_xor_right x)

/-- Multiplying by `x` is additive and commutes with the shift, so it passes over a multiplication by `y`. -/
theorem gfMul_left_comm (x y z : Block) : gfMul x (gfMul y z) = gfMul y (gfMul x z) :=
  gfMul_map (gfMul_xor_right x) (gfMul_gfShift x) y z

/-! ### The identity -/

/-- A single bit above bit 0 is shifted right with nothing to reduce. -/
theorem gfShift_twoPow {n : Nat} (hn : n + 1 < 128) :
    gfShift (BitVec.twoPow 128 (n + 1)) = BitVec.twoPow 128 n := by
  rw [gfShift, if_neg (by simp)]
  refine BitVec.eq_of_getLsbD_eq fun i hi => ?_
  simp [BitVec.getLsbD_twoPow, hn, Nat.lt_of_succ_lt hn, Nat.add_comm 1]

/-- Adding bit `n` of `x` changes no other bit of the accumulator. -/
theorem getLsbD_addBit (x z : Block) {n : Nat} (hn : n < 128) (i : Nat) :
    (if x.getLsbD n then z ^^^ BitVec.twoPow 128 n else z).getLsbD i
      = (z.getLsbD i ^^ (decide (i = n) && x.getLsbD i)) := by
  by_cases hi : i = n
  · subst hi
    cases x.getLsbD i <;> simp [hn]
  · split <;> simp [BitVec.getLsbD_twoPow, hi, Ne.symm hi]

/-- From the single bit `n` in the shifting copy, the loop adds bits `n .. 0` of `x` to the accumulator, each
at its own place. -/
theorem gfLoop_twoPow_getLsbD (x z : Block) {n : Nat} (hn : n < 128) (i : Nat) :
    (gfLoop x (n + 1) z (BitVec.twoPow 128 n)).getLsbD i
      = (z.getLsbD i ^^ (decide (i ≤ n) && x.getLsbD i)) := by
  induction n generalizing z with
  | zero => simpa [gfLoop] using getLsbD_addBit x z hn i
  | succ n ih =>
    rw [gfLoop, gfShift_twoPow hn, ih _ (Nat.lt_of_succ_lt hn), getLsbD_addBit x z hn, Bool.xor_assoc]
    congr 1
    rcases lt_trichotomy i (n + 1) with h | rfl | h
    · simp [h.ne, h.le, Nat.le_of_lt_succ h]
    · simp
    · simp [h.ne', h.not_ge, (Nat.lt_of_succ_lt h).not_ge]

@[simp] theorem gfMul_one (x : Block) : gfMul x gfOne = x := by
  refine BitVec.eq_of_getLsbD_eq fun i hi => ?_
  rw [gfMul, show gfOne = BitVec.twoPow 128 127 by decide, gfLoop_twoPow_getLsbD x 0 (by decide)]
  simp [Nat.le_of_lt_succ hi]

/-! ### The ring laws -/

theorem gfMul_comm (x y : Block) : gfMul x y = gfMul y x := by
  simpa using gfMul_left_comm x y gfOne

theorem gfMul_assoc (x y z : Block) : gfMul (gfMul x y) z = gfMul x (gfMul y z) := by
  rw [gfMul_comm, gfMul_left_comm, gfMul_comm z]

theorem gfMul_xor_left (x y z : Block) : gfMul (x ^^^ y) z = gfMul x z ^^^ gfMul y z := by
  simp only [gfMul_comm _ z, gfMul_xor_right]

/-- The shift is the multiplication by 40 00..00, the shifted identity. -/
theorem gfShift_eq_gfMul (y : Block) : gfShift y = gfMul (gfShift gfOne) y := by
  rw [gfMul_comm, gfMul_gfShift, gfMul_one]

end Sys2Proof.Machine
end

section
/-! SUPPORT. GHASH block by block: what one more block, complete or not, does to the hash (R223). -/

namespace Sys2Proof.Machine

open Sys2Proof

@[simp] theorem ghash_nil (h : Block) : ghash h [] = 0 := rfl

/-- The full blocks of `d` are hashed before the data after them. -/
theorem ghashLoop_append (h : Block) {n : Nat} {d : List Byte} (hd : d.length = 16 * n) (m : Nat)
    (b : List Byte) (a : Block) :
    ghashLoop h (n + m) (d ++ b) a = ghashLoop h m b (ghashLoop h n d a) := by
  induction n generalizing d a with
  | zero => rw [List.eq_nil_of_length_eq_zero hd, Nat.zero_add]; rfl
  | succ n ih =>
    have h16 : 16 ≤ d.length := by omega
    rw [Nat.succ_add, ghashLoop, ghashLoop, List.take_append_of_le_length h16,
      List.drop_append_of_le_length h16, ih (by rw [List.length_drop]; omega)]

/-- After full blocks, one more block of 1 to 16 bytes is zero-padded, added and multiplied (R223). -/
theorem ghash_append (h : Block) {d b : List Byte} (hd : d.length % 16 = 0) (hpos : 0 < b.length)
    (hb : b.length ≤ 16) : ghash h (d ++ b) = gfMul (ghash h d ^^^ bytesBlock (padTo16 b)) h := by
  have hlen : d.length = 16 * (d.length / 16) := by omega
  have hcount : blockCount d.length = d.length / 16 := by unfold blockCount; omega
  have hcount' : blockCount (d ++ b).length = d.length / 16 + 1 := by
    rw [List.length_append]; unfold blockCount; omega
  rw [ghash, hcount', ghashLoop_append h hlen, ← hcount, ← ghash, ghashLoop, ghashLoop,
    List.take_of_length_le hb]

/-- Padding makes up for a zero byte left out (R223). -/
theorem padTo16_append_zero {b : List Byte} (hb : b.length < 16) : padTo16 (b ++ [0]) = padTo16 b := by
  have hcount : 16 - b.length = 16 - (b.length + 1) + 1 := by omega
  rw [padTo16, padTo16, zeroBytes, zeroBytes, List.length_append, List.length_singleton, hcount,
    List.replicate_succ, List.append_assoc]
  rfl

/-- A zero byte after full blocks is a zero block: one more multiplication (R224). -/
theorem ghash_append_zero_full (h : Block) {d : List Byte} (hd : d.length % 16 = 0) :
    ghash h (d ++ [0]) = gfMul (ghash h d) h := by
  rw [ghash_append h hd (by decide) (by decide), show bytesBlock (padTo16 [0]) = 0#128 by decide,
    BitVec.xor_zero]

/-- A zero byte after an incomplete block is a byte of its padding (R224). -/
theorem ghash_append_zero_partial (h : Block) {d : List Byte} (hd : d.length % 16 ≠ 0) :
    ghash h (d ++ [0]) = ghash h d := by
  obtain ⟨c, b, rfl, hc, hpos, hb⟩ :
      ∃ c b, d = c ++ b ∧ c.length % 16 = 0 ∧ 0 < b.length ∧ b.length < 16 := by
    refine ⟨d.take (16 * (d.length / 16)), d.drop (16 * (d.length / 16)), by simp, ?_, ?_, ?_⟩ <;>
      simp only [List.length_take, List.length_drop] <;> omega
  rw [List.append_assoc, ghash_append h hc (by simp) (by simpa using hb), ghash_append h hc hpos hb.le,
    padTo16_append_zero hb]

/-- The byte 80, padded, is the identity of the multiplication (R224). -/
theorem ghash_singleton_80 (h : Block) : ghash h [0x80] = h := by
  rw [← List.nil_append [0x80], ghash_append h rfl (by decide) (by decide),
    show bytesBlock (padTo16 [0x80]) = gfOne by decide, gfMul_comm]
  simp

end Sys2Proof.Machine
end

section
/-! SUPPORT. When nothing refuses GF_MUL and GHASH (R103, R305). -/

namespace Sys2Proof.Machine

open Sys2Proof

/-- GF_MUL and GHASH name two inputs and one output, and are refused only for those three ranges (R103). -/
theorem commandRefusal_gf {i : Instr} {s : State} {n : Nat}
    (hi : i = .gfMul ∧ n = 16 ∨ i = .ghash ∧ n = s.operands.len.toNat)
    (hsrc : InMemory s s.operands.src.toNat n) (hsrc2 : InMemory s s.operands.src2.toNat 16)
    (hdst : InMemory s s.operands.dst.toNat 16)
    (hpair : InPlaceOrApart s.operands.dst.toNat 16 s.operands.src.toNat n)
    (hpair2 : InPlaceOrApart s.operands.dst.toNat 16 s.operands.src2.toNat 16) :
    s.commandRefusal i = none := by
  have hranges : commandRanges i s.operands =
      ⟨[⟨s.operands.src.toNat, n⟩, ⟨s.operands.src2.toNat, 16⟩], [⟨s.operands.dst.toNat, 16⟩]⟩ := by
    rcases hi with ⟨rfl, rfl⟩ | ⟨rfl, rfl⟩ <;> rfl
  have hoverlap : OverlapLegal (commandRanges i s.operands) := by
    rw [hranges]
    simpa [OverlapLegal] using ⟨hpair, hpair2⟩
  have hmem : AllInMemory s (commandRanges i s.operands) := by
    rw [hranges]
    simpa [AllInMemory] using ⟨hsrc, hsrc2, hdst⟩
  rcases hi with ⟨rfl, -⟩ | ⟨rfl, -⟩ <;>
    exact commandRefusal_eq_none ⟨rfl, by simp, by simp, by simp⟩ (by simp [BlockCountLegal]) hoverlap
      (by simp [TagClear]) hmem

end Sys2Proof.Machine
end

section
/-! The statements of spec/43_gf_ghash.md, settled. -/

open Sys2Proof Sys2Proof.Machine

/-- Settles O18: the three blocks are all that could refuse GF_MUL, and its one store is the product. -/
theorem gfMulCommandWritesProduct : Obligations.GfMulCommandWritesProduct := by
  intro s hm hsrc hsrc2 hdst hpair hpair2
  exact exec_overwrites hm (commandRefusal_gf (.inl ⟨rfl, rfl⟩) hsrc hsrc2 hdst hpair hpair2) rfl

/-- Settles O19: the three ranges are all that could refuse GHASH, whatever the length, and its one store is the
hash. -/
theorem ghashCommandWritesHash : Obligations.GhashCommandWritesHash := by
  intro s hm hsrc hsrc2 hdst hpair hpair2
  exact exec_overwrites hm (commandRefusal_gf (.inr ⟨rfl, rfl⟩) hsrc hsrc2 hdst hpair hpair2) rfl

/-- Settles O20: multiplying is additive and commutes with the shift, and the shift is
multiplying by 40 00..00. -/
theorem gfMulRingLaws : Obligations.GfMulRingLaws :=
  ⟨gfMul_comm, gfMul_assoc, gfMul_xor_left, gfMul_one, gfMul_zero, fun y => (gfShift_eq_gfMul y).symm⟩

/-- Settles O21: a zero byte begins a zero block or belongs to the padding; the byte 80, padded, is the
identity. -/
theorem ghashTrailingZero : Obligations.GhashTrailingZero := by
  refine ⟨fun h d => ?_, ghash_nil, ghash_singleton_80⟩
  split
  next hd => exact ghash_append_zero_full h hd
  next hd => exact ghash_append_zero_partial h hd

/-- Settles O57: full blocks are hashed before the block after them. -/
theorem ghashRecurrence : Obligations.GhashRecurrence :=
  ⟨ghash_nil, fun h _ _ => ghash_append h⟩

end

section
/-! SUPPORT. The GCM functions: counter mode byte by byte, J0, the tag, and the two layouts of the authentication
input (R243, R244, R245). -/

namespace Sys2Proof.Machine

open Sys2Proof

/-! ### Counter mode -/

theorem inc32_extractLsb'_high (cb : Block) : (inc32 cb).extractLsb' 32 96 = cb.extractLsb' 32 96 :=
  BitVec.extractLsb'_append_eq_left

theorem inc32_extractLsb'_low (cb : Block) : (inc32 cb).extractLsb' 0 32 = cb.extractLsb' 0 32 + 1 :=
  BitVec.extractLsb'_append_eq_right

theorem xorBytes_getD {a b : List Byte} {k : Nat} (ha : k < a.length) (hb : k < b.length) :
    (xorBytes a b).getD k 0 = a.getD k 0 ^^^ b.getD k 0 := by
  simp [xorBytes, ha, hb]

/-- Stated for the blocks left and the present counter block, so that a block moves both on by one. -/
theorem gctrLoop_getD (e : Block → Block) {n : Nat} (cb : Block) {d : List Byte} (hd : d.length ≤ 16 * n)
    {k : Nat} (hk : k < d.length) :
    (gctrLoop e n cb d).getD k 0 =
      d.getD k 0 ^^^ (blockBytes (e (inc32^[k / 16 + 1] cb))).getD (k % 16) 0 := by
  induction n generalizing cb d k with
  | zero => omega
  | succ n ih =>
    have hfirst : (xorBytes (d.take 16) (blockBytes (e (inc32 cb)))).length = min 16 d.length := by simp
    rw [gctrLoop]
    rcases Nat.lt_or_ge k 16 with hlt | hge
    · rw [List.getD_append _ _ _ _ (by omega), xorBytes_getD (by simp; omega) (by simpa using hlt),
        Nat.div_eq_of_lt hlt, Nat.mod_eq_of_lt hlt]
      simp [hlt]
    · obtain ⟨j, rfl⟩ := Nat.exists_eq_add_of_le hge
      have hblock : (16 + j) / 16 = j / 16 + 1 := by omega
      have hplace : 16 + j - min 16 d.length = j := by omega
      rw [List.getD_append_right _ _ _ _ (by omega), hfirst, hplace,
        ih (inc32 cb) (by rw [List.length_drop]; omega) (by rw [List.length_drop]; omega), hblock,
        Function.iterate_succ_apply, Nat.add_mod_left]
      simp

/-- Byte `k` of counter mode (R245). -/
theorem gctr_getD (e : Block → Block) (j0 : Block) {d : List Byte} {k : Nat} (hk : k < d.length) :
    (gctr e j0 d).getD k 0 =
      d.getD k 0 ^^^ (blockBytes (e (inc32^[k / 16 + 1] j0))).getD (k % 16) 0 :=
  gctrLoop_getD e j0 (by unfold blockCount; omega) hk

/-- Counter mode undoes itself: each byte meets the same byte of the keystream twice. -/
theorem gctr_gctr (e : Block → Block) (j0 : Block) (d : List Byte) : gctr e j0 (gctr e j0 d) = d := by
  refine List.ext_getElem (by simp) fun k _ hk => ?_
  have hk' : k < (gctr e j0 d).length := by simpa using hk
  have hbyte : (gctr e j0 (gctr e j0 d)).getD k 0 = d.getD k 0 := by
    rw [gctr_getD e j0 hk', gctr_getD e j0 hk, BitVec.xor_assoc, BitVec.xor_self, BitVec.xor_zero]
  simpa [hk] using hbyte

/-! ### The session's functions, whatever the backend (R188) -/

theorem ctr_eq_gctr (g : GcmSession) (p : Params) (be : Backend) (d : List Byte) :
    g.ctr p be d = gctr (sm4Crypt g.rk .enc) (g.j0 p) d := by
  rw [GcmSession.ctr, encrypt_eq_sm4Crypt]

theorem tag_eq_take (g : GcmSession) (p : Params) (be : Backend) (c : List Byte) (t : Nat) :
    g.tag p be c t = (blockBytes (ghash g.h (authInput p.authLayout g.aad c)
      ^^^ sm4Crypt g.rk .enc (g.j0 p))).take t := by
  rw [GcmSession.tag, encrypt_eq_sm4Crypt]

theorem ctr_ctr (g : GcmSession) (p : Params) (be be' : Backend) (d : List Byte) :
    g.ctr p be (g.ctr p be' d) = d := by
  rw [ctr_eq_gctr, ctr_eq_gctr, gctr_gctr]

/-- A shorter tag is the beginning of a longer one (R251). -/
theorem tag_take (g : GcmSession) (p : Params) (be : Backend) (c : List Byte) {t u : Nat} (h : t ≤ u) :
    (g.tag p be c u).take t = g.tag p be c t := by
  rw [GcmSession.tag, GcmSession.tag, List.take_take, Nat.min_eq_left h]

/-! ### J0 -/

theorem j0_of_length_eq {g : GcmSession} (p : Params) (h : g.iv.length = 12) :
    g.j0 p = bytesBlock (g.iv ++ [0x00, 0x00, 0x00, 0x01]) :=
  if_pos h

theorem j0_docPlain {g : GcmSession} {p : Params} (h : g.iv.length ≠ 12) (hp : p.ivExpansion = .docPlain) :
    g.j0 p = ghash g.h g.iv := by
  rw [GcmSession.j0, if_neg h, hp]

theorem j0_nistLengthBlock {g : GcmSession} {p : Params} (h : g.iv.length ≠ 12)
    (hp : p.ivExpansion = .nistLengthBlock) :
    g.j0 p = ghash g.h (g.iv ++ zeroBytes (padLen g.iv.length + 8) ++ be64bytes (8 * g.iv.length)) := by
  rw [GcmSession.j0, if_neg h, hp]

/-! ### Padding and the authentication input -/

theorem padLen_lt (n : Nat) : padLen n < 16 := Nat.mod_lt _ (by decide)

theorem add_padLen_mod (n : Nat) : (n + padLen n) % 16 = 0 := by
  unfold padLen
  omega

theorem padLen_of_mod {n : Nat} (h : n % 16 = 0) : padLen n = 0 := by
  rw [padLen, h]

/-- Full blocks need no padding, which is all the layouts differ in. -/
theorem authInput_docConcat_eq_nistPadded {a c : List Byte} (ha : a.length % 16 = 0)
    (hc : c.length % 16 = 0) : authInput .docConcat a c = authInput .nistPadded a c := by
  simp [authInput, padLen_of_mod ha, padLen_of_mod hc, zeroBytes]

/-- Either layout ends in the two bit lengths. -/
theorem authInput_eq_append (l : AuthLayout) (a c : List Byte) :
    ∃ body, authInput l a c = body ++ (be64bytes (8 * a.length) ++ be64bytes (8 * c.length)) := by
  cases l with
  | docConcat | nistPadded => exact ⟨_, List.append_assoc ..⟩

theorem drop_authInput (l : AuthLayout) (a c : List Byte) :
    (authInput l a c).drop ((authInput l a c).length - 16)
      = be64bytes (8 * a.length) ++ be64bytes (8 * c.length) := by
  obtain ⟨body, h⟩ := authInput_eq_append l a c
  rw [h, List.drop_left' (by simp)]

theorem authInput_nistPadded_length_mod (a c : List Byte) :
    (authInput .nistPadded a c).length % 16 = 0 := by
  have ha := add_padLen_mod a.length
  have hc := add_padLen_mod c.length
  simp only [authInput, List.length_append, zeroBytes_length, be64bytes_length]
  omega

end Sys2Proof.Machine
end

section
/-! SUPPORT. The GCM commands: when nothing refuses them and what they leave behind (R103, R240 to R242, R246 to
R249, R305). -/

namespace Sys2Proof.Machine

open Sys2Proof

/-! ### What refuses them -/

/-- A command that only reads, and from one range, is refused only for that range. -/
theorem commandRefusal_of_oneInput {i : Instr} {s : State} {a n : Nat}
    (hranges : commandRanges i s.operands = ⟨[⟨a, n⟩], []⟩) (hreach : ReachesRangeChecks i s)
    (hcount : BlockCountLegal i s) (htag : TagClear i s) (hin : InMemory s a n) :
    s.commandRefusal i = none := by
  apply commandRefusal_eq_none hreach hcount _ htag <;> rw [hranges]
  · simpa [AllInMemory] using hin
  · simp [OverlapLegal]

theorem commandRefusal_gcmSetKey {s : State} (h : InMemory s s.operands.src.toNat 16) :
    s.commandRefusal .gcmSetKey = none :=
  commandRefusal_of_oneInput rfl ⟨rfl, by simp, by simp, by simp⟩ (by simp [BlockCountLegal])
    (by simp [TagClear]) h

theorem commandRefusal_gcmSetIv {s : State} (hcap : s.operands.len.toNat ≤ s.params.maxIvBytes)
    (h : InMemory s s.operands.src.toNat s.operands.len.toNat) : s.commandRefusal .gcmSetIv = none :=
  commandRefusal_of_oneInput rfl ⟨rfl, by simp, fun _ => hcap, by simp⟩ (by simp [BlockCountLegal])
    (by simp [TagClear]) h

theorem commandRefusal_gcmSetAad {s : State} (hcap : s.operands.len.toNat ≤ s.params.maxAadBytes)
    (h : InMemory s s.operands.src.toNat s.operands.len.toNat) : s.commandRefusal .gcmSetAad = none :=
  commandRefusal_of_oneInput rfl ⟨rfl, by simp, by simp, fun _ => hcap⟩ (by simp [BlockCountLegal])
    (by simp [TagClear]) h

/-- The capacity comes before the range (R305). -/
theorem commandRefusal_ivCapacity {s : State} (h : s.params.maxIvBytes < s.operands.len.toNat) :
    s.commandRefusal .gcmSetIv = some .ivCapacity := by
  simp [State.commandRefusal, Instr.wf, h]

theorem commandRefusal_aadCapacity {s : State} (h : s.params.maxAadBytes < s.operands.len.toNat) :
    s.commandRefusal .gcmSetAad = some .aadCapacity := by
  simp [State.commandRefusal, Instr.wf, h]

/-- GCM_CLEAR names no range, so nothing refuses it (R103). -/
theorem commandRefusal_gcmClear (s : State) : s.commandRefusal .gcmClear = none :=
  commandRefusal_eq_none ⟨rfl, by simp, by simp, by simp⟩ (by simp [BlockCountLegal])
    (by simp [OverlapLegal, commandRanges]) (by simp [TagClear]) (by simp [AllInMemory, commandRanges])

theorem apart_comm {a n b m : Nat} (h : Apart a n b m) : Apart b m a n := by
  unfold Apart at h ⊢
  omega

section Aead
variable {s : State} {n : BitVec 5} (hn : n.toNat ≤ 16) (hiv : s.session.ivSet = true)
  (hsrc : InMemory s s.operands.src.toNat s.operands.len.toNat)
  (hdst : InMemory s s.operands.dst.toNat s.operands.len.toNat)
  (htag : InMemory s s.operands.tag.toNat n.toNat)
  (hpair : InPlaceOrApart s.operands.dst.toNat s.operands.len.toNat
    s.operands.src.toNat s.operands.len.toNat)
  (htagDst : Apart s.operands.tag.toNat n.toNat s.operands.dst.toNat s.operands.len.toNat)
include hn hiv hsrc hdst htag hpair htagDst

/-- GCM_ENC with an IV is refused only for its three ranges (R80, R247). -/
theorem commandRefusal_gcmEnc
    (htagSrc : Apart s.operands.tag.toNat n.toNat s.operands.src.toNat s.operands.len.toNat) :
    s.commandRefusal (.gcmEnc n) = none := by
  apply commandRefusal_eq_none
  · exact ⟨decide_eq_true hn, fun _ _ => hiv, by simp, by simp⟩
  · simp [BlockCountLegal]
  · simpa [OverlapLegal, commandRanges] using ⟨⟨hpair, .inr htagSrc⟩, apart_comm htagDst⟩
  · simpa [TagClear] using ⟨htagSrc, htagDst⟩
  · simpa [AllInMemory, commandRanges] using ⟨hsrc, hdst, htag⟩

/-- GCM_DEC with an IV is refused only for its three ranges (R80, R248). -/
theorem commandRefusal_gcmDec : s.commandRefusal (.gcmDec n) = none := by
  apply commandRefusal_eq_none
  · exact ⟨decide_eq_true hn, fun _ _ => hiv, by simp, by simp⟩
  · simp [BlockCountLegal]
  · simpa [OverlapLegal, commandRanges] using ⟨hpair, .inr (apart_comm htagDst)⟩
  · simpa [TagClear] using htagDst
  · simpa [AllInMemory, commandRanges] using ⟨hsrc, htag, hdst⟩

end Aead

/-! ### What they leave behind -/

/-- IV_SET after GCM_SETIV, by whether LEN is 0 (R241). -/
theorem ivSet_eq_ite (len : Word) (b : Bool) :
    (decide (0 < len.toNat) || b) = if len = 0 then b else true := by
  split_ifs with h
  · simp [h]
  · have hpos : 0 < len.toNat := Nat.pos_of_ne_zero fun h0 => h (BitVec.eq_of_toNat_eq h0)
    simp [hpos]

/-- GCM_SETKEY while IDLE, with the registers written out (notes/assumptions/14.md). -/
theorem exec_gcmSetKey_of_idle {s : State} {r : OperandRegs} (hc : s.core = .idle)
    (h : InMemory s r.src.toNat 16) :
    exec .gcmSetKey { s with regs := r } = .next (State.finish .none { s with
      regs := r, session := s.session.withKey (backendOf r.backend) (s.readBlock r.src.toNat) }) := by
  have ho : State.operands { s with regs := r } = r := operands_of_idle _ hc
  have hr := commandRefusal_gcmSetKey (s := { s with regs := r }) (by rw [ho]; exact h)
  rw [exec_of_none hr, commandEffect, State.backend, ho]
  rfl

/-- GCM_SETIV while IDLE, with the registers written out (notes/assumptions/14.md). -/
theorem exec_gcmSetIv_of_idle {s : State} {r : OperandRegs} (hc : s.core = .idle)
    (hcap : r.len.toNat ≤ s.params.maxIvBytes) (h : InMemory s r.src.toNat r.len.toNat) :
    exec .gcmSetIv { s with regs := r } = .next (State.finish .none { s with
      regs := r
      session := { s.session with
        iv := s.mem.readBytes r.src.toNat r.len.toNat
        ivSet := decide (0 < r.len.toNat) || s.params.emptyIvCountsAsSet } }) := by
  have ho : State.operands { s with regs := r } = r := operands_of_idle _ hc
  have hr := commandRefusal_gcmSetIv (s := { s with regs := r }) (by rw [ho]; exact hcap)
    (by rw [ho]; exact h)
  rw [exec_of_none hr, commandEffect, ho]

/-- Both modes of GCM_CLEAR zero the keys (R249). -/
theorem clear_keys (g : GcmSession) (mode : ClearIvMode) :
    (g.clear mode).rk = Schedule.zero ∧ (g.clear mode).h = 0 ∧ (g.clear mode).keyed = false := by
  cases mode with
  | empty | zeroFill => exact ⟨rfl, rfl, rfl⟩

theorem commandEffect_gcmEnc {s : State} (n : BitVec 5) (h : s.session.ivSet = true) :
    commandEffect (.gcmEnc n) s =
      ((s.store s.operands.dst.toNat (s.session.ctr s.params s.backend s.gcmInput)).store
        s.operands.tag.toNat (s.session.tag s.params s.backend
          (s.session.ctr s.params s.backend s.gcmInput) n.toNat)).finish .none := by
  simp [commandEffect, h]

/-- GCM_DEC of a tag that verifies stores the plaintext (R248). -/
theorem commandEffect_gcmDec_of_verified {s : State} {n : BitVec 5} (h : s.session.ivSet = true)
    (htag : s.session.tag s.params s.backend s.gcmInput n.toNat
      = s.mem.readBytes s.operands.tag.toNat n.toNat) :
    commandEffect (.gcmDec n) s =
      (s.store s.operands.dst.toNat (s.session.ctr s.params s.backend s.gcmInput)).finish .none := by
  simp [commandEffect, h, htag]

/-- GCM_ENC and GCM_DEC write at most data memory and the status (R246). -/
theorem commandEffect_aead {i : Instr} {n : BitVec 5} (hi : i = .gcmEnc n ∨ i = .gcmDec n) (s : State) :
    commandEffect i s = { s with
      mem := (commandEffect i s).mem, done := true, err := (commandEffect i s).err, core := .idle } := by
  rcases hi with rfl | rfl
  · simp only [commandEffect]
    split_ifs <;> rfl
  · simp only [commandEffect]
    split_ifs <;> rfl

/-- IVBUF and IV_SET are written by GCM_SETIV and GCM_CLEAR alone (R246). -/
theorem commandEffect_iv {i : Instr} (s : State) (hset : i ≠ .gcmSetIv) (hclear : i ≠ .gcmClear) :
    (commandEffect i s).session.iv = s.session.iv ∧
      (commandEffect i s).session.ivSet = s.session.ivSet := by
  by_cases hkey : i = .gcmSetKey
  · rw [hkey]; exact ⟨rfl, rfl⟩
  by_cases haad : i = .gcmSetAad
  · rw [haad]; exact ⟨rfl, rfl⟩
  rw [commandEffect_session s hkey hset haad hclear]
  exact ⟨rfl, rfl⟩

/-- AADBUF is written by GCM_SETAAD and GCM_CLEAR alone (R246). -/
theorem commandEffect_aad {i : Instr} (s : State) (hset : i ≠ .gcmSetAad) (hclear : i ≠ .gcmClear) :
    (commandEffect i s).session.aad = s.session.aad := by
  by_cases hkey : i = .gcmSetKey
  · rw [hkey]; rfl
  by_cases hiv : i = .gcmSetIv
  · rw [hiv]; rfl
  rw [commandEffect_session s hkey hiv hset hclear]

/-- A write leaves what is read from another range alone. -/
theorem Memory.readBytes_writeBytes_apart {bs : List Byte} {a b n : Nat} (m : Memory)
    (h : Apart a bs.length b n) : (m.writeBytes a bs).readBytes b n = m.readBytes b n := by
  refine Memory.readBytes_congr _ _ b n fun x hlo hhi => ?_
  refine Memory.readByte_writeBytes_outside bs m a x ?_
  unfold Apart at h
  omega

/-- What GCM_ENC leaves at DST and at TAG: the tag buffer is clear of the ciphertext's (R247). -/
theorem readBytes_commandEffect_gcmEnc {s : State} {n : BitVec 5} (hs : s.mem.wf)
    (hiv : s.session.ivSet = true) (hr : s.commandRefusal (.gcmEnc n) = none) :
    (commandEffect (.gcmEnc n) s).mem.readBytes s.operands.dst.toNat s.operands.len.toNat
        = s.session.ctr s.params s.backend s.gcmInput ∧
      (commandEffect (.gcmEnc n) s).mem.readBytes s.operands.tag.toNat n.toNat
        = s.session.tag s.params s.backend (s.session.ctr s.params s.backend s.gcmInput) n.toNat := by
  obtain ⟨-, -, hclear, -⟩ := ranges_of_commandRefusal hr fun _ _ => hiv
  have hapart := (hclear.1 n rfl).2
  have hn : n.toNat ≤ 16 := of_decide_eq_true (wf_of_commandRefusal hr)
  rw [commandEffect_gcmEnc n hiv]
  have hclen : (s.session.ctr s.params s.backend s.gcmInput).length = s.operands.len.toNat := by
    simp [State.gcmInput]
  generalize s.session.ctr s.params s.backend s.gcmInput = c at hclen ⊢
  have htlen := tag_length s.session s.params s.backend c n.toNat hn
  generalize s.session.tag s.params s.backend c n.toNat = tag at htlen ⊢
  rw [← hclen, ← htlen] at hapart ⊢
  simp only [finish_mem, store_mem]
  constructor
  · rw [Memory.readBytes_writeBytes_apart _ hapart, Memory.readBytes_writeBytes_same _ _ _ hs]
  · exact Memory.readBytes_writeBytes_same _ _ _ (Memory.wf_writeBytes _ _ _ hs)

end Sys2Proof.Machine
end

section
/-! The statements of spec/44_gcm.md, settled. -/

open Sys2Proof Sys2Proof.Machine

/-- Settles O22: the key's range is all that could refuse GCM_SETKEY, and H is the same under every backend. -/
theorem gcmSetKeyDerivesSubkey : Obligations.GcmSetKeyDerivesSubkey := by
  intro s h
  rw [exec_of_none (commandRefusal_gcmSetKey h), ← engineCrypt_eq s.backend]
  rfl

/-- Settles O23: the capacity and the IV's range are all that could refuse GCM_SETIV. -/
theorem gcmSetIvReplacesIv : Obligations.GcmSetIvReplacesIv := by
  intro s hcap h
  rw [exec_of_none (commandRefusal_gcmSetIv hcap h), ← ivSet_eq_ite]
  rfl

/-- Settles O24: the capacity and the AAD's range are all that could refuse GCM_SETAAD. -/
theorem gcmSetAadReplacesAad : Obligations.GcmSetAadReplacesAad :=
  fun _ hcap h => exec_of_none (commandRefusal_gcmSetAad hcap h)

/-- Settles O25: the two writes of GCM_ENC, one after the other, with the session's functions as those of
SM4Crypt. -/
theorem gcmEncWritesCiphertextAndTag : Obligations.GcmEncWritesCiphertextAndTag := by
  intro s n hm hn hiv hsrc hdst htag hpair htagSrc htagDst
  rw [exec_of_none (commandRefusal_gcmEnc hn hiv hsrc hdst htag hpair htagDst htagSrc),
    commandEffect_gcmEnc n hiv, tag_eq_take, ctr_eq_gctr]
  exact ⟨_, _, rfl, rfl, fun x => Memory.readByte_writeBytes _ s.mem _ x hm,
    fun x => Memory.readByte_writeBytes _ _ _ x (Memory.wf_writeBytes _ _ _ hm)⟩

/-- Settles O26: the tag verifies, so the one store of GCM_DEC is the plaintext. -/
theorem gcmDecVerifiedWritesPlaintext : Obligations.GcmDecVerifiedWritesPlaintext := by
  intro s n hm hn hiv hsrc hdst htag hpair htagDst hverified
  have heffect := commandEffect_gcmDec_of_verified hiv ((tag_eq_take ..).trans hverified.symm)
  rw [ctr_eq_gctr] at heffect
  exact exec_overwrites hm (commandRefusal_gcmDec hn hiv hsrc hdst htag hpair htagDst) heffect

/-- Settles O27: GCM_CLEAR has nothing to be refused for, and its effect is the cleared session of the mode. -/
theorem gcmClearZeroesSession : Obligations.GcmClearZeroesSession := by
  intro s
  obtain ⟨hrk, hh, hkeyed⟩ := clear_keys s.session s.params.clearIvMode
  have hsession : (commandEffect .gcmClear s).session = s.session.clear s.params.clearIvMode := rfl
  refine ⟨_, exec_of_none (commandRefusal_gcmClear s), rfl, hrk, hh, hkeyed, fun hmode => ?_, fun hmode => ?_⟩ <;>
    rw [hsession, hmode] <;> exact ⟨rfl, rfl, rfl⟩

/-- Settles O30, from what each command's effect writes. -/
theorem sessionPersists : Obligations.SessionPersists := by
  refine ⟨fun s t n h => ?_, fun i s t h => ?_⟩
  · obtain ⟨i, hi, hexec⟩ : ∃ i, (i = .gcmEnc n ∨ i = .gcmDec n) ∧ exec i s = .next t := by simpa using h
    obtain ⟨-, rfl⟩ := exec_eq_next.1 hexec
    exact commandEffect_aead hi s
  · obtain ⟨-, rfl⟩ := exec_eq_next.1 h
    constructor
    · contrapose!
      exact fun hi => commandEffect_iv s hi.1 hi.2
    · contrapose!
      exact fun hi => commandEffect_aad s hi.1 hi.2

/-- Settles O31: the tag GCM_ENC stored is the one GCM_DEC computes, and counter mode undoes itself. -/
theorem aeadRoundTrip : Obligations.AeadRoundTrip := by
  intro s t v n hs hv hiv henc hparams hsession hlen hcipher htag hoverlap hclear hmem
  obtain ⟨hr, rfl⟩ := exec_eq_next.1 henc
  obtain ⟨hdst, htagBytes⟩ := readBytes_commandEffect_gcmEnc hs hiv hr
  rw [hdst] at hcipher
  rw [htagBytes] at htag
  rw [commandEffect_params] at hparams
  rw [commandEffect_session s (by simp) (by simp) (by simp) (by simp)] at hsession
  have hinput : v.gcmInput = s.session.ctr s.params s.backend s.gcmInput := by
    rw [State.gcmInput, hlen, hcipher]
  have hvIv : v.session.ivSet = true := by rw [hsession, hiv]
  have hverified : v.session.tag v.params v.backend v.gcmInput n.toNat
      = v.mem.readBytes v.operands.tag.toNat n.toNat := by
    rw [htag, hinput, hsession, hparams, tag_backend]
  have hwf : (Instr.gcmDec n).wf = true := wf_of_commandRefusal (i := .gcmEnc n) hr
  have hrefusal : v.commandRefusal (.gcmDec n) = none :=
    commandRefusal_eq_none ⟨hwf, fun _ _ => hvIv, by simp, by simp⟩
      (by simp [BlockCountLegal]) hoverlap hclear hmem
  have hplain : v.session.ctr v.params v.backend v.gcmInput = s.gcmInput := by
    rw [hinput, hsession, hparams, ctr_ctr]
  have heffect := commandEffect_gcmDec_of_verified hvIv hverified
  rw [hplain] at heffect
  refine ⟨_, exec_of_none hrefusal, ?_, ?_⟩ <;> rw [heffect]
  · rfl
  · have hread := Memory.readBytes_writeBytes_same s.gcmInput v.mem v.operands.dst.toNat hv
    simpa [State.gcmInput] using hread

/-- Settles O32: a shorter tag is the beginning of a longer one. -/
theorem tagIsPrefixOfFullTag : Obligations.TagIsPrefixOfFullTag :=
  fun g p be c t h => ⟨(tag_take g p be c h).symm, tag_length g p be c t h⟩

/-- Settles O33: the padding of each part is R245's, none for full blocks. -/
theorem authLayoutsAgreeOnFullBlocks : Obligations.AuthLayoutsAgreeOnFullBlocks :=
  fun a c => ⟨rfl,
    ⟨padLen a.length, padLen c.length, padLen_lt _, padLen_lt _, add_padLen_mod _, add_padLen_mod _, rfl⟩,
    authInput_docConcat_eq_nistPadded, fun l => drop_authInput l a c, authInput_nistPadded_length_mod a c⟩

/-- Settles O34: the two commands write different fields of the session, and neither writes what the other reads. -/
theorem setKeyAndSetIvCommute : Obligations.SetKeyAndSetIvCommute := by
  intro s k a n hc hk ha hcap
  exact ⟨_, _, _, _, exec_gcmSetKey_of_idle hc hk, exec_gcmSetIv_of_idle rfl hcap ha,
    exec_gcmSetIv_of_idle hc hcap ha, exec_gcmSetKey_of_idle rfl hk, rfl, rfl, rfl⟩

/-- Settles O37: a capacity is checked before the range. -/
theorem capacityRefused : Obligations.CapacityRefused :=
  fun _ => ⟨fun h => exec_eq_refused.2 (commandRefusal_ivCapacity h),
    fun h => exec_eq_refused.2 (commandRefusal_aadCapacity h)⟩

/-- Settles O58: a 12-byte IV fills a block with the four bytes after it; the other cases are the model's own. -/
theorem initialCounterBlock : Obligations.InitialCounterBlock := by
  intro g p
  refine ⟨fun h => ?_, j0_docPlain, fun h hp => ?_⟩
  · rw [j0_of_length_eq p h, blockBytes_bytesBlock _ (by simp [h])]
  · exact ⟨padLen g.iv.length, padLen_lt _, add_padLen_mod _, j0_nistLengthBlock h hp⟩

/-- Settles O59, from the two parts of inc32 and the value of each byte of counter mode. -/
theorem counterModeBytes : Obligations.CounterModeBytes := by
  refine ⟨fun cb => ⟨inc32_extractLsb'_high cb, ?_⟩,
    fun e j0 d => ⟨gctr_length e j0 d, fun k => gctr_getD e j0⟩⟩
  rw [inc32_extractLsb'_low, BitVec.toNat_add]
  rfl

end

section
/-! SUPPORT. How a command ends: the two errors and their causes, what STATUS says of them (R300 to R302, R304), and
the ways IV_SET becomes 0 (R241, R249, R330). -/

namespace Sys2Proof.Machine

open Sys2Proof

/-! ### The outcomes -/

/-- Whatever their operands, GCM_ENC and GCM_DEC without an IV record INVALID_STATE and do no more (R301). -/
theorem commandEffect_noIv {i : Instr} {s : State} {n : BitVec 5} (hi : i = .gcmEnc n ∨ i = .gcmDec n)
    (h : s.session.ivSet = false) : commandEffect i s = s.finish .invalidState := by
  rcases hi with rfl | rfl <;> exact if_pos h

/-- GCM_DEC of a tag that differs records AUTH_FAIL and does no more (R302). -/
theorem commandEffect_gcmDec_of_wrongTag {s : State} {n : BitVec 5} (h : s.session.ivSet = true)
    (htag : s.session.tag s.params s.backend s.gcmInput n.toNat
      ≠ s.mem.readBytes s.operands.tag.toNat n.toNat) :
    commandEffect (.gcmDec n) s = s.finish .authFail := by
  simp [commandEffect, h, htag]

/-- The three outcomes of a command and what causes the two errors (R300). -/
theorem commandEffect_err_cases (i : Instr) (s : State) :
    (commandEffect i s).err = .none ∨
      ((commandEffect i s).err = .invalidState ∧ s.session.ivSet = false ∧
        ∃ n, i = .gcmEnc n ∨ i = .gcmDec n) ∨
      ((commandEffect i s).err = .authFail ∧ s.session.ivSet = true ∧ ∃ n, i = .gcmDec n ∧
        s.session.tag s.params s.backend s.gcmInput n.toNat
          ≠ s.mem.readBytes s.operands.tag.toNat n.toNat) := by
  cases i with
  | gcmEnc n =>
    cases hiv : s.session.ivSet with
    | false =>
      rw [commandEffect_noIv (.inl rfl) hiv]
      exact .inr (.inl ⟨rfl, rfl, n, .inl rfl⟩)
    | true =>
      rw [commandEffect_gcmEnc n hiv]
      exact .inl rfl
  | gcmDec n =>
    cases hiv : s.session.ivSet with
    | false =>
      rw [commandEffect_noIv (.inr rfl) hiv]
      exact .inr (.inl ⟨rfl, rfl, n, .inr rfl⟩)
    | true =>
      by_cases htag : s.session.tag s.params s.backend s.gcmInput n.toNat
          = s.mem.readBytes s.operands.tag.toNat n.toNat
      · rw [commandEffect_gcmDec_of_verified hiv htag]
        exact .inl rfl
      · rw [commandEffect_gcmDec_of_wrongTag hiv htag]
        exact .inr (.inr ⟨rfl, rfl, n, rfl, htag⟩)
  | ksExpand | sm4SetKey | sm4Enc | sm4Dec | sm4EncBlocks | sm4DecBlocks | sm4Clear | gfMul | ghash
    | gcmSetKey | gcmSetIv | gcmSetAad | gcmClear => exact .inl rfl

@[simp] theorem commandEffect_regs (i : Instr) (s : State) : (commandEffect i s).regs = s.regs := by
  obtain ⟨c, g, m, e, h⟩ := commandEffect_eq_update i s
  rw [h]

@[simp] theorem commandEffect_resp (i : Instr) (s : State) : (commandEffect i s).resp = s.resp := by
  obtain ⟨c, g, m, e, h⟩ := commandEffect_eq_update i s
  rw [h]

/-- A command completes or is refused: there is no fault (R307). -/
theorem exec_ne_fault (i : Instr) (s : State) (r : Fault) : exec i s ≠ .fault r := by
  rw [exec_eq]
  exact checked_ne_fault nofun

/-- STATUS[3:2] while IDLE is the code of ERR (R34, R300). -/
theorem idleStatus_err (s : State) : s.idleStatus.extractLsb' 2 2 = s.err.code :=
  statusFields_err ..

/-! ### How IV_SET becomes 0 -/

/-- Reset starts the session afresh, whether or not a command is abandoned (R330, R333). -/
@[simp] theorem applyReset_session (s : State) (c : Bool) : (s.applyReset c).session = GcmSession.cleared := rfl

/-- GCM_SETIV of length 0, by what the parameter makes of an empty IV (R241). -/
theorem commandEffect_gcmSetIv_empty {s : State} (h : s.operands.len = 0) :
    (commandEffect .gcmSetIv s).session.ivSet = s.params.emptyIvCountsAsSet :=
  (ivSet_eq_ite s.operands.len s.params.emptyIvCountsAsSet).trans (if_pos h)

end Sys2Proof.Machine
end

section
/-! The statements of spec/60_exceptions.md, settled. -/

open Sys2Proof Sys2Proof.Machine

/-- Settles O28: without an IV no range is checked and the effect is the error alone; IV_SET is 0 in a fresh
session, in one GCM_CLEAR emptied, and after an empty IV that does not count. -/
theorem noIvRaisesInvalidState : Obligations.NoIvRaisesInvalidState := by
  refine ⟨fun s n hn hiv => ?_, fun s t c rest hm ht => ?_, fun s t hmode ht => ?_, fun s t hempty hlen ht => ?_⟩
  · obtain ⟨henc, hdec⟩ := commandRefusal_noIv hn hiv
    rw [exec_of_none henc, exec_of_none hdec, commandEffect_noIv (.inl rfl) hiv, commandEffect_noIv (.inr rfl) hiv]
    exact ⟨rfl, rfl⟩
  · obtain rfl := Host.Outcome.next.inj ((step_hostMoves hm).symm.trans ht)
    rw [applyReset_session, GcmSession.cleared]
  · obtain ⟨-, rfl⟩ := exec_eq_next.1 ht
    rw [commandEffect, finish_session, hmode, GcmSession.clear]
  · obtain ⟨-, rfl⟩ := exec_eq_next.1 ht
    rw [commandEffect_gcmSetIv_empty hlen, hempty]

/-- Settles O29: nothing refuses the command, and its effect with a tag that differs is the error alone. -/
theorem wrongTagRaisesAuthFail : Obligations.WrongTagRaisesAuthFail := by
  intro s n hn hiv hsrc hdst htag hpair htagDst hwrong
  have hdiffers : s.session.tag s.params s.backend s.gcmInput n.toNat
      ≠ s.mem.readBytes s.operands.tag.toNat n.toNat := by
    rw [tag_eq_take]
    exact hwrong.symm
  rw [exec_of_none (commandRefusal_gcmDec hn hiv hsrc hdst htag hpair htagDst),
    commandEffect_gcmDec_of_wrongTag hiv hdiffers]
  rfl

/-- Settles O38: the outcomes of a command's effect, each with its code in STATUS. -/
theorem commandOutcomes : Obligations.CommandOutcomes := by
  intro i s
  refine ⟨exec_ne_fault i s, fun t ht => ?_⟩
  obtain ⟨-, rfl⟩ := exec_eq_next.1 ht
  refine ⟨commandEffect_core i s, commandEffect_done i s, commandEffect_regs i s, commandEffect_resp i s, ?_⟩
  rw [idleStatus_err]
  rcases commandEffect_err_cases i s with herr | ⟨herr, hcause⟩ | ⟨herr, hcause⟩
  · exact .inl ⟨herr, congrArg ErrCode.code herr⟩
  · exact .inr (.inl ⟨herr, congrArg ErrCode.code herr, hcause⟩)
  · exact .inr (.inr ⟨herr, congrArg ErrCode.code herr, hcause⟩)

end

section
/-! SUPPORT. A command in flight under a host that polls or is idle (R345, R346), the register window while BUSY
(R340), and what reset and the two clears leave behind (R330, R332, R333). -/

namespace Sys2Proof.Machine

open Sys2Proof

/-! ### A command in flight under a quiet host -/

/-- The host is idle or polls STATUS. -/
def State.HostQuiet (s : State) : Prop := s.host = [] ∨ ∃ rest, s.host = .wait :: rest

/-- A poll that reads BUSY = 1 stays the host's next access (R108). -/
theorem hostOp_wait_of_busy {s : State} {f : InFlight} (hc : s.core = .busy f) :
    s.hostOp .wait = .next { s.readStatus with host := .wait :: s.host } := by
  rw [State.hostOp, if_pos (busy_of_busy hc)]

/-- A turn of a quiet host uses up one host turn of the command in flight, and the host stays quiet. -/
theorem step_of_hostQuiet {s : State} {f : InFlight} {n : Nat} (hc : s.core = .busy f)
    (hn : f.turns = n + 1) (hq : s.HostQuiet) :
    ∃ t, step s = .next t ∧ t.core = .busy { f with turns := n } ∧ t.HostQuiet := by
  rcases hq with hh | ⟨rest, hh⟩
  · refine ⟨{ s with core := .busy { f with turns := n } }, ?_, rfl, .inl hh⟩
    simp only [step, hc, hn, State.hostTurn, hh]
  · have hm : HostMoves s .wait rest := ⟨hh, fun g hg => by
      obtain rfl := CoreState.busy.inj (hc.symm.trans hg)
      omega⟩
    have hbusy : (afterTurn s rest).core = .busy { f with turns := n } := by
      rw [afterTurn_of_busy hc, hn, Nat.add_sub_cancel]
    refine ⟨_, (step_hostMoves hm).trans (hostOp_wait_of_busy hbusy), ?_, .inr ⟨_, rfl⟩⟩
    rw [readStatus_of_busy hbusy]
    exact hbusy

/-- A step that goes on is the first step of a run. -/
theorem run_succ_of_step {M : Host.Core} {s t : M.State} (h : M.step s = .next t) (k : Nat) :
    M.run (k + 1) s = M.run k t := by
  rw [Host.Core.run, h]

/-- With no host turn left, the invariant's command in flight completes in one step (R82). -/
theorem State.Inv.step_completes {s : State} (h : s.Inv) {f : InFlight} (hc : s.core = .busy f)
    (hn : f.turns = 0) : ∃ t, step s = .next t ∧ t.core = .idle ∧ t.done = true := by
  obtain ⟨-, -, i, hdec, href, -⟩ := h.inFlight f hc
  exact ⟨Machine.commandEffect i s, (step_of_no_turns hc hn hdec).trans (exec_of_none href),
    commandEffect_core i s, commandEffect_done i s⟩

/-- Induction on the host turns left: each is one quiet step, and the last step is the core's. -/
theorem State.Inv.run_completes {s : State} (h : s.Inv) {f : InFlight} {n : Nat} (hc : s.core = .busy f)
    (hn : f.turns = n) (hq : s.HostQuiet) :
    ∃ t, Sys2Proof.core.run (n + 1) s = .next t ∧ t.core = .idle ∧ t.done = true := by
  induction n generalizing s f with
  | zero =>
    obtain ⟨t, hstep, hidle, hdone⟩ := h.step_completes hc hn
    exact ⟨t, run_succ_of_step (M := Sys2Proof.core) hstep 0, hidle, hdone⟩
  | succ n ih =>
    obtain ⟨u, hstep, hcore, hquiet⟩ := step_of_hostQuiet hc hn hq
    rw [run_succ_of_step (M := Sys2Proof.core) hstep]
    exact ih (stepKeepsTheInvariant s u h hstep) hcore rfl hquiet

/-! ### The register window while BUSY -/

/-- CMD and the operand registers are hazards while BUSY (R340). -/
theorem writeReg_of_busy {s : State} (h : s.busy = true) (v : Word) {off : Nat}
    (hoff : off ∈ [offCmd, offSrc, offSrc2, offDst, offLen, offTag, offBackendSel]) :
    s.writeReg off v = .refused .hostHazard := by
  have hregs (r : OperandRegs) : s.writeRegs r = .refused .hostHazard := if_pos h
  simp only [List.mem_cons, List.not_mem_nil, or_false] at hoff
  rcases hoff with rfl | rfl | rfl | rfl | rfl | rfl | rfl
  · rw [State.writeReg, if_pos rfl, if_pos h]
  iterate 6 exact hregs _

/-! ### Reset -/

/-- Reset as a step: the model's reset of the state before the host's turn. -/
theorem step_reset {s : State} {c : Bool} {rest : List HostOp} (hm : HostMoves s (.reset c) rest) :
    step s = .next { s.applyReset c with host := rest } := by
  rw [step_hostMoves hm, State.hostOp]
  cases hc : s.core with
  | idle => rw [afterTurn_of_idle hc]; rfl
  | busy f =>
    rw [afterTurn_of_busy hc]
    simp only [State.applyReset, State.inFlightOutputs, State.fetch, State.operands, hc]

/-- STATUS after reset: CAP in bit 7 and zeros (R330). -/
theorem applyReset_idleStatus (s : State) (c : Bool) :
    (s.applyReset c).idleStatus = if c then 0x00000080 else 0x00000000 := by
  have hctx : (s.applyReset c).contextBits = 0 := by
    change BitVec.ofBool false ++ BitVec.ofBool false ++ BitVec.ofBool false = (0 : BitVec 3)
    decide
  rw [State.idleStatus, hctx]
  change statusFields c 0 0 false false = _
  cases c <;> decide

/-- With no command in flight reset draws no free value and leaves data memory alone (R330). -/
theorem applyReset_of_idle {s : State} (h : s.core = .idle) (c : Bool) :
    s.applyReset c = { State.resetWith s.params c with
      mem := s.mem, freeCount := s.freeCount, host := s.host, busyFor := s.busyFor, resp := s.resp } := by
  have hnone : s.inFlightOutputs = [] := by simp only [State.inFlightOutputs, State.fetch, h]
  rw [State.applyReset, hnone]
  rfl

/-- The output ranges reset abandons are those of the latched command (R47, R333). -/
theorem inFlightOutputs_of_busy {s : State} {f : InFlight} {i : Instr} (hc : s.core = .busy f)
    (hd : decode f.word = .ok i) : s.inFlightOutputs = (commandRanges i f.latch).outputs := by
  rw [State.inFlightOutputs, fetch_of_busy hc hd, operands_of_busy s f hc]

/-- Reset of a command in flight, in what it does to data memory and the free values drawn (R333). -/
theorem applyReset_of_busy {s : State} {f : InFlight} {i : Instr} (hc : s.core = .busy f)
    (hd : decode f.word = .ok i) (c : Bool) :
    ((s.applyReset c).mem, (s.applyReset c).freeCount) =
      (commandRanges i f.latch).outputs.foldl (scrambleRange s.params.memSize) (s.mem, s.freeCount) := by
  rw [← inFlightOutputs_of_busy hc hd]
  rfl

/-! ### The free values of an abandoned command's output ranges -/

@[simp] theorem freeBytes_length (start n : Nat) : (freeBytes start n).length = n := by
  simp [freeBytes]

theorem freeBytes_getD {start n k : Nat} (h : k < n) :
    (freeBytes start n).getD k 0 = Config.freeByte (start + k) := by
  simp [freeBytes, List.getD_eq_getElem?_getD, h]

/-- Reading after one range was scrambled: its bytes below the memory size are free values, numbered from its
start. -/
theorem readByte_scrambleRange {mc : Memory × Nat} (hwf : mc.1.wf) (ms : Nat) (r : Range) (x : Nat) :
    (scrambleRange ms mc r).1.readByte x =
      if r.addr ≤ x ∧ x < r.addr + r.len ∧ x < ms then Config.freeByte (mc.2 + (x - r.addr))
      else mc.1.readByte x := by
  rw [scrambleRange, Memory.readByte_writeBytes _ _ _ _ hwf, List.length_take, freeBytes_length]
  by_cases h : r.addr ≤ x ∧ x < r.addr + r.len ∧ x < ms
  · rw [if_pos h, if_pos (by omega), List.getD_eq_getElem?_getD, List.getElem?_take_of_lt (by omega),
      ← List.getD_eq_getElem?_getD, freeBytes_getD (by omega)]
  · rw [if_neg h, if_neg (by omega)]

/-- Scrambling ranges writes inside them alone. -/
theorem Memory.WrittenWithin.scrambleRanges {all rs : List Range} {m : Memory} {mc : Memory × Nat} (ms : Nat)
    (h : m.WrittenWithin all mc.1) (hsub : rs ⊆ all) :
    m.WrittenWithin all (rs.foldl (scrambleRange ms) mc).1 := by
  induction rs generalizing mc with
  | nil => exact h
  | cons r rs ih =>
    obtain ⟨hr, hrs⟩ := List.cons_subset.1 hsub
    refine ih (mc := scrambleRange ms mc r) (h.writeBytes hr ?_) hrs
    exact (List.length_take_le' _ _).trans (freeBytes_length mc.2 r.len).le

/-- Address `x` of the memory `mc.1` holds a free value drawn between `start` and the next one, `mc.2`. -/
def HoldsFreeByte (start : Nat) (mc : Memory × Nat) (x : Nat) : Prop :=
  ∃ k, start ≤ k ∧ k < mc.2 ∧ mc.1.readByte x = Config.freeByte k

/-- One more range: an address it covers holds a fresh free value, every other one what it held. -/
theorem holdsFreeByte_scrambleRange {start ms x : Nat} {mc : Memory × Nat} {r : Range} (hwf : mc.1.wf)
    (hstart : start ≤ mc.2) (hx : x < ms)
    (h : (r.addr ≤ x ∧ x < r.addr + r.len) ∨ HoldsFreeByte start mc x) :
    HoldsFreeByte start (scrambleRange ms mc r) x := by
  have hnext : (scrambleRange ms mc r).2 = mc.2 + r.len := rfl
  have hread := readByte_scrambleRange hwf ms r x
  by_cases hin : r.addr ≤ x ∧ x < r.addr + r.len ∧ x < ms
  · exact ⟨mc.2 + (x - r.addr), by omega, by omega, hread.trans (if_pos hin)⟩
  · obtain ⟨k, hlo, hhi, hk⟩ := h.resolve_left (by omega)
    exact ⟨k, hlo, by omega, (hread.trans (if_neg hin)).trans hk⟩

/-- An address one of the ranges covers holds a free value in the end, also where ranges overlap. -/
theorem holdsFreeByte_scrambleRanges {start ms x : Nat} {rs : List Range} {mc : Memory × Nat}
    (hwf : mc.1.wf) (hstart : start ≤ mc.2) (hx : x < ms)
    (h : (∃ r ∈ rs, r.addr ≤ x ∧ x < r.addr + r.len) ∨ HoldsFreeByte start mc x) :
    HoldsFreeByte start (rs.foldl (scrambleRange ms) mc) x := by
  induction rs generalizing mc with
  | nil => exact h.resolve_left (by simp)
  | cons r rs ih =>
    have hstep := holdsFreeByte_scrambleRange (r := r) hwf hstart hx
    refine ih (mc := scrambleRange ms mc r) (Memory.wf_writeBytes _ _ _ hwf)
      (Nat.le_add_right_of_le hstart) ?_
    rcases h with ⟨q, hq, hcover⟩ | hold
    · rcases List.mem_cons.1 hq with rfl | hq
      · exact .inr (hstep (.inl hcover))
      · exact .inl ⟨q, hq, hcover⟩
    · exact .inr (hstep (.inr hold))

/-! ### The two clears -/

/-- SM4_CLEAR and then GCM_CLEAR in mode EMPTY give both contexts their reset values (R186, R249). -/
theorem commandEffect_gcmClear_sm4Clear {s : State} (hmode : s.params.clearIvMode = .empty) :
    commandEffect .gcmClear (commandEffect .sm4Clear s) = { s with
      cipher := CipherContext.cleared, session := GcmSession.cleared,
      core := .idle, done := true, err := .none } := by
  simp only [commandEffect, State.finish, hmode, GcmSession.clear, CipherContext.cleared, GcmSession.cleared]

end Sys2Proof.Machine
end

section
/-! The statements of spec/70_reset_and_hazards.md, settled. -/

open Sys2Proof Sys2Proof.Machine

/-- Settles O44, by induction on the host turns the command has left. -/
theorem everyCommandCompletes : Obligations.EveryCommandCompletes :=
  fun _ _ h hc hq => h.run_completes hc rfl hq

/-- Settles O51: the host's turn leaves the core BUSY, and then the register's write or read decides. -/
theorem registerWriteWhileBusy : Obligations.RegisterWriteWhileBusy := by
  intro s f off v rest hc
  have hbusy : (afterTurn s rest).busy = true := (afterTurn_busy s rest).trans (busy_of_busy hc)
  refine ⟨fun hm => ⟨fun hoff => ?_, fun hoff => ?_⟩, fun hm hlt h4 => ⟨_, step_regRead hlt h4 hm⟩⟩
  · obtain ⟨hlt, h4⟩ : off < 256 ∧ off % 4 = 0 := by
      simp only [List.mem_cons, List.not_mem_nil, or_false] at hoff
      omega
    rw [step_regWrite hlt h4 hm]
    exact writeReg_of_busy hbusy v hoff
  · rw [step_regWrite (by omega) (by omega) hm]
    exact writeReg_ignored _ v (hoff.imp id And.left)

/-- Settles O54: the model's reset writes every element of the core. -/
theorem resetGivesResetValues : Obligations.ResetGivesResetValues := by
  intro s c rest hm
  refine ⟨_, step_reset hm, rfl, rfl, rfl, rfl, rfl, rfl, rfl, applyReset_idleStatus s c, fun hc => ?_⟩
  rw [applyReset_of_idle hc]

/-- Settles O55: outside the latched command's output ranges nothing is scrambled, and an address of one of them
holds a free value drawn by this reset. -/
theorem resetDuringCommand : Obligations.ResetDuringCommand := by
  intro s f i c rest hc hd hwf hm
  have hmem := applyReset_of_busy hc hd c
  have hwithin := (Memory.WrittenWithin.refl (commandRanges i f.latch).outputs s.mem).scrambleRanges
    (mc := (s.mem, s.freeCount)) s.params.memSize (List.Subset.refl _)
  rw [← hmem] at hwithin
  refine ⟨_, step_reset hm, rfl, applyReset_idleStatus s c, hwithin.frame, fun r hr x hlo hhi hx => ?_⟩
  have hfree := holdsFreeByte_scrambleRanges (mc := (s.mem, s.freeCount)) hwf le_rfl hx
    (.inl ⟨r, hr, hlo, hhi⟩)
  rwa [← hmem] at hfree

/-- Settles O56: neither clear is refused, and both sides are the same state written out. -/
theorem resetAndClearAgree : Obligations.ResetAndClearAgree := by
  intro s rest hc hmode hm
  refine ⟨_, _, _, step_reset hm, exec_of_none (commandRefusal_sm4Clear s),
    exec_of_none (commandRefusal_gcmClear _), ?_⟩
  rw [applyReset_of_idle hc, commandEffect_gcmClear_sm4Clear hmode]
  rfl

end
